-- ==== Sys2Proof/Word.lean ====
section
/-! DEFINITION. The machine word: registers, data cells and instruction words are all 16 bits (R10, R23, R50). -/

namespace Sys2Proof

/-- A 16-bit pattern (XLEN of R6). Bit 15 is the most significant bit (R7). -/
abbrev Word := BitVec 16

end Sys2Proof
end

