-- ==== Sys2Proof/Machine/Alu.lean ====
section
/-! DEFINITION. The results of the operations: computed on the mathematical integers and narrowed at the end where the
spec does so (43_binary.md R129), bit by bit otherwise. -/

namespace Sys2Proof.Machine

/-- The two's complement reading of a word (00_scope.md R8). -/
def signed (v : Word) : Int := if v.toNat < 32768 then v.toNat else (v.toNat : Int) - 65536

/-- The word congruent to an integer modulo 65536 (00_scope.md R8). -/
def wrap16 (z : Int) : Word := BitVec.ofInt 16 z

/-- 42_unary.md R110. -/
def copyResult (x : Word) : Word := x

/-- 42_unary.md R111: the bitwise complement. -/
def notResult (x : Word) : Word := ~~~x

/-- 42_unary.md R112. -/
def negResult (x : Word) : Word := wrap16 (0 - x.toNat)

/-- 43_binary.md R121. -/
def andResult (x y : Word) : Word := x &&& y

/-- 43_binary.md R122. -/
def orResult (x y : Word) : Word := x ||| y

/-- 43_binary.md R123. -/
def xorResult (x y : Word) : Word := x ^^^ y

/-- 43_binary.md R124. -/
def addResult (x y : Word) : Word := wrap16 (x.toNat + y.toNat)

/-- 43_binary.md R125. -/
def subResult (x y : Word) : Word := wrap16 (x.toNat - y.toNat)

/-- 43_binary.md R126. -/
def mulResult (x y : Word) : Word := wrap16 (x.toNat * y.toNat)

/-- 43_binary.md R127: the floor of the signed quotient, for a divisor that is not zero. -/
def divResult (x y : Word) : Word := wrap16 ((signed x).fdiv (signed y))

/-- 43_binary.md R128: the remainder that goes with the floor quotient, for a divisor that is not zero. -/
def remResult (x y : Word) : Word := wrap16 (signed x - signed y * (signed x).fdiv (signed y))

end Sys2Proof.Machine
end

