-- ==== Sys2Proof/Syntax.lean ====
section
/-! DEFINITION. The instruction set as syntax: one constructor of Instr per row of spec/opcode_table.json, with the
operand selectors and result masks already turned into names (30_encoding.md R52 to R54). -/

namespace Sys2Proof

/-- Operand selectors (30_encoding.md R58): registers A to D, the constants 0 and 1, the pseudo-register M, and the one
code that names no operand (R65). -/
inductive Sel
  | a | b | c | d | zero | one | m | reserved
  deriving DecidableEq, Repr

/-- A result mask (30_encoding.md R60, R61): for each destination, whether the result is written to it. -/
structure Dests where
  a : Bool
  b : Bool
  c : Bool
  d : Bool
  m : Bool
  deriving DecidableEq, Repr

/-- The mask that names no destination (R61). -/
def Dests.empty : Dests := ⟨false, false, false, false, false⟩

/-- The unary operations (R113). -/
inductive UnOp
  | copy | not | neg
  deriving DecidableEq, Repr

/-- The binary operations (R120). -/
inductive BinOp
  | and | or | xor | add | sub | mul | div | rem
  deriving DecidableEq, Repr

/-- What the 4-bit opcode field can name: the twelve operations in their three classes (30_encoding.md R56, R57). -/
inductive Op
  | un (u : UnOp)
  | bin (f : BinOp)
  | jmp
  deriving DecidableEq, Repr

/-- The comparison codes of a JMP word (30_encoding.md R62). -/
inductive Cmp
  | nv | eq | lt | le | al | ne | ge | gt
  deriving DecidableEq, Repr

/-- An instruction. The ignored fields (selB of a unary word, bits 4 and 3 of a JMP word) are not part of it (R66). -/
inductive Instr
  | ldi (imm : BitVec 15)
  | copy (sa : Sel) (ds : Dests)
  | not (sa : Sel) (ds : Dests)
  | neg (sa : Sel) (ds : Dests)
  | and (sa sb : Sel) (ds : Dests)
  | or (sa sb : Sel) (ds : Dests)
  | xor (sa sb : Sel) (ds : Dests)
  | add (sa sb : Sel) (ds : Dests)
  | sub (sa sb : Sel) (ds : Dests)
  | mul (sa sb : Sel) (ds : Dests)
  | div (sa sb : Sel) (ds : Dests)
  | rem (sa sb : Sel) (ds : Dests)
  | jmpNv (sa sb : Sel)
  | jmpEq (sa sb : Sel)
  | jmpLt (sa sb : Sel)
  | jmpLe (sa sb : Sel)
  | jmpAl (sa sb : Sel)
  | jmpNe (sa sb : Sel)
  | jmpGe (sa sb : Sel)
  | jmpGt (sa sb : Sel)
  deriving DecidableEq, Repr

/-- The instruction of a unary operation. -/
def UnOp.instr : UnOp → Sel → Dests → Instr
  | .copy => .copy
  | .not => .not
  | .neg => .neg

/-- The instruction of a binary operation. -/
def BinOp.instr : BinOp → Sel → Sel → Dests → Instr
  | .and => .and
  | .or => .or
  | .xor => .xor
  | .add => .add
  | .sub => .sub
  | .mul => .mul
  | .div => .div
  | .rem => .rem

/-- The JMP instruction of a comparison code. -/
def Cmp.instr : Cmp → Sel → Sel → Instr
  | .nv => .jmpNv
  | .eq => .jmpEq
  | .lt => .jmpLt
  | .le => .jmpLe
  | .al => .jmpAl
  | .ne => .jmpNe
  | .ge => .jmpGe
  | .gt => .jmpGt

/-- An instruction seen through the word shapes of 30_encoding.md R52 to R54. -/
inductive Shape
  | imm (v : BitVec 15)
  | un (u : UnOp) (sa : Sel) (ds : Dests)
  | bin (f : BinOp) (sa sb : Sel) (ds : Dests)
  | jmp (c : Cmp) (sa sb : Sel)
  deriving DecidableEq, Repr

/-- The shape of each instruction. -/
def Instr.shape : Instr → Shape
  | .ldi v => .imm v
  | .copy sa ds => .un .copy sa ds
  | .not sa ds => .un .not sa ds
  | .neg sa ds => .un .neg sa ds
  | .and sa sb ds => .bin .and sa sb ds
  | .or sa sb ds => .bin .or sa sb ds
  | .xor sa sb ds => .bin .xor sa sb ds
  | .add sa sb ds => .bin .add sa sb ds
  | .sub sa sb ds => .bin .sub sa sb ds
  | .mul sa sb ds => .bin .mul sa sb ds
  | .div sa sb ds => .bin .div sa sb ds
  | .rem sa sb ds => .bin .rem sa sb ds
  | .jmpNv sa sb => .jmp .nv sa sb
  | .jmpEq sa sb => .jmp .eq sa sb
  | .jmpLt sa sb => .jmp .lt sa sb
  | .jmpLe sa sb => .jmp .le sa sb
  | .jmpAl sa sb => .jmp .al sa sb
  | .jmpNe sa sb => .jmp .ne sa sb
  | .jmpGe sa sb => .jmp .ge sa sb
  | .jmpGt sa sb => .jmp .gt sa sb

/-- The result mask of an instruction: none is written by a JMP (R140), and LDI writes register A (R100). -/
def Shape.dests : Shape → Dests
  | .imm _ => { Dests.empty with a := true }
  | .un _ _ ds => ds
  | .bin _ _ _ ds => ds
  | .jmp _ _ _ => .empty

end Sys2Proof
end

