-- ==== Sys2Proof/Machine/Flags.lean ====
section
/-! DEFINITION. The machine has no flags (10_state.md R17): a JMP compares its two operands itself and keeps nothing of
the comparison. This file holds that comparison. -/

namespace Sys2Proof.Machine

/-- The number a JMP reads an operand as when it orders it: signed, or unsigned when CMP_SIGNED is false (00_scope.md R6,
43_binary.md R130). -/
def reading (cmpSigned : Bool) (v : Word) : Int := if cmpSigned then signed v else v.toNat

/-- Whether a comparison holds of operand-A and operand-B (44_jump.md R141 to R148). -/
def taken (cmpSigned : Bool) (cmp : Cmp) (opA opB : Word) : Bool :=
  match cmp with
  | .nv => false
  | .eq => decide (opA = opB)
  | .lt => decide (reading cmpSigned opA < reading cmpSigned opB)
  | .le => decide (reading cmpSigned opA ≤ reading cmpSigned opB)
  | .al => true
  | .ne => decide (opA ≠ opB)
  | .ge => decide (reading cmpSigned opA ≥ reading cmpSigned opB)
  | .gt => decide (reading cmpSigned opA > reading cmpSigned opB)

end Sys2Proof.Machine
end

