-- ==== Sys2Proof/Machine/Memory.lean ====
section
/-! DEFINITION. Data memory as plain data (10_state.md R23, 20_memory.md R30): the cells that do not hold zero, by rising
cell index. A cell that is not listed holds 0, which is what load leaves in every cell (R27). -/

namespace Sys2Proof.Machine

/-- Data memory: (cell index, 16-bit content) pairs. The cell is the smallest unit the machine addresses (log 4). -/
abbrev Memory := List (Nat × Word)

/-- The content of the cell at index `k` (R33, below the range check). -/
def Memory.read : Memory → Nat → Word
  | [], _ => 0
  | (k', v) :: rest, k => if k' = k then v else Memory.read rest k

/-- The memory with `v` in the cell at index `k` and every other cell as before (R34, below the range check). -/
def Memory.write : Memory → Nat → Word → Memory
  | [], k, v => if v = 0 then [] else [(k, v)]
  | (k', v') :: rest, k, v =>
    if k < k' then if v = 0 then (k', v') :: rest else (k, v) :: (k', v') :: rest
    else if k = k' then if v = 0 then rest else (k, v) :: rest
    else (k', v') :: Memory.write rest k v

/-- The writes of a list of cells, in order (INIT_MEM, 70_reset_and_hazards.md R234). -/
def Memory.writeAll (mem : Memory) (cells : List (Nat × Word)) : Memory :=
  cells.foldl (fun acc cell => acc.write cell.1 cell.2) mem

/-- The canonical form: indices strictly rise, and no listed cell holds what an unlisted one reads as. -/
abbrev Memory.WellFormed (mem : Memory) : Prop :=
  mem.Pairwise (fun x y => x.1 < y.1) ∧ ∀ cell ∈ mem, cell.2 ≠ 0

end Sys2Proof.Machine
end

