-- ==== Sys2Proof/Config.lean ====
section
/-! DEFINITION. The parameters of 00_scope.md R6 as plain data. Their default values are Params.default
(Machine/Parameters.lean) and the default maps (Decode.lean). The model has no free value: the spec leaves no value
open. -/

namespace Sys2Proof

/-- OPCODE_MAP (30_encoding.md R56): the 4-bit number of each operation. -/
structure OpcodeMap where
  copy : BitVec 4
  not : BitVec 4
  neg : BitVec 4
  and : BitVec 4
  or : BitVec 4
  xor : BitVec 4
  add : BitVec 4
  sub : BitVec 4
  mul : BitVec 4
  div : BitVec 4
  rem : BitVec 4
  jmp : BitVec 4
  deriving DecidableEq, Repr

/-- SELECTOR_MAP (30_encoding.md R58): the 3-bit number of each operand, and the number that is left over (R65). -/
structure SelectorMap where
  a : BitVec 3
  b : BitVec 3
  c : BitVec 3
  d : BitVec 3
  zero : BitVec 3
  one : BitVec 3
  m : BitVec 3
  reserved : BitVec 3
  deriving DecidableEq, Repr

/-- MASK_MAP (30_encoding.md R60): which bit of the 5-bit result mask stands for each destination. -/
structure MaskMap where
  a : Fin 5
  b : Fin 5
  c : Fin 5
  d : Fin 5
  m : Fin 5
  deriving DecidableEq, Repr

/-- CMP_MAP (30_encoding.md R62): the 3-bit number of each comparison code. -/
structure CmpMap where
  nv : BitVec 3
  eq : BitVec 3
  lt : BitVec 3
  le : BitVec 3
  al : BitVec 3
  ne : BitVec 3
  ge : BitVec 3
  gt : BitVec 3
  deriving DecidableEq, Repr

/-- The four numeric maps together. -/
structure Maps where
  opcode : OpcodeMap
  selector : SelectorMap
  mask : MaskMap
  cmp : CmpMap
  deriving DecidableEq, Repr

/-- JMP_TARGET_POLICY (R6, 44_jump.md R149). -/
inductive JmpTargetPolicy
  /-- The target is register A, for every JMP word. -/
  | regA
  /-- As regA, but a JMP word whose two readings of the source could differ is refused. -/
  | refuseIfDiffers
  deriving DecidableEq, Repr

/-- The parameters of R6 that the machine reads. XLEN is the width of Word; PREDEFINED_SYMBOLS is an argument of the
assembler. -/
structure Params where
  maps : Maps
  /-- MEM_SIZE: the number of data-memory cells. -/
  memSize : Nat
  /-- STEP_LIMIT: the largest number of instructions one run executes. -/
  stepLimit : Nat
  /-- PROG_MAX: the largest number of words load accepts. -/
  progMax : Nat
  /-- CMP_SIGNED: whether the ordering comparisons of JMP read their operands as signed. -/
  cmpSigned : Bool
  jmpTargetPolicy : JmpTargetPolicy
  /-- INIT_MEM: the cells the host sets between load and the first step, in order. -/
  initMem : List (Nat × Word)
  deriving DecidableEq, Repr

end Sys2Proof
end

