-- ==== Sys2Proof/WellFormed.lean ====
section
/-! DEFINITION. When an instruction has an encoding that runs: none of the selectors it uses is the reserved one
(30_encoding.md R65; the encoder's requirements of R70). The 15-bit immediate and the 5 destinations are well formed
by their types. -/

namespace Sys2Proof

/-- The selectors an instruction uses: none for LDI, one for the unary operations, two for the others (R57, R66). -/
def Shape.sels : Shape → List Sel
  | .imm _ => []
  | .un _ sa _ => [sa]
  | .bin _ sa sb _ => [sa, sb]
  | .jmp _ sa sb => [sa, sb]

/-- No selector the instruction uses is the reserved one. -/
abbrev Instr.WellFormed (i : Instr) : Prop := Sel.reserved ∉ i.shape.sels

end Sys2Proof
end

