-- ==== Sys2Proof/Decode.lean ====
section
/-! DEFINITION. The instruction word: the default numeric maps, the decoder (30_encoding.md R69), the encoder (R70) and
the 16-character text of a word (R7, R175). -/

namespace Sys2Proof

/-! ## The default numbers (30_encoding.md R56, R58, R60, R62; log 6) -/

/-- R56. -/
def OpcodeMap.default : OpcodeMap where
  copy := 0
  not := 1
  neg := 2
  and := 3
  or := 4
  xor := 5
  add := 6
  sub := 7
  mul := 8
  div := 9
  rem := 10
  jmp := 11

/-- R58. -/
def SelectorMap.default : SelectorMap where
  a := 0
  b := 1
  c := 2
  d := 3
  zero := 4
  one := 5
  m := 6
  reserved := 7

/-- R60. -/
def MaskMap.default : MaskMap where
  a := 4
  b := 3
  c := 2
  d := 1
  m := 0

/-- R62. -/
def CmpMap.default : CmpMap where
  nv := 0
  eq := 1
  lt := 2
  le := 3
  al := 4
  ne := 5
  ge := 6
  gt := 7

/-- The numbers this spec uses everywhere (R6). -/
def Maps.default : Maps where
  opcode := OpcodeMap.default
  selector := SelectorMap.default
  mask := MaskMap.default
  cmp := CmpMap.default

/-! ## Names to numbers and back -/

/-- Every operation, in the order of R56. -/
def Op.all : List Op :=
  [.un .copy, .un .not, .un .neg, .bin .and, .bin .or, .bin .xor, .bin .add, .bin .sub, .bin .mul, .bin .div, .bin .rem,
    .jmp]

/-- Every selector, in the order of R58. -/
def Sel.all : List Sel := [.a, .b, .c, .d, .zero, .one, .m, .reserved]

/-- Every comparison code, in the order of R62. -/
def Cmp.all : List Cmp := [.nv, .eq, .lt, .le, .al, .ne, .ge, .gt]

/-- The opcode number of an operation (R56). -/
def OpcodeMap.code (mp : OpcodeMap) : Op → BitVec 4
  | .un .copy => mp.copy
  | .un .not => mp.not
  | .un .neg => mp.neg
  | .bin .and => mp.and
  | .bin .or => mp.or
  | .bin .xor => mp.xor
  | .bin .add => mp.add
  | .bin .sub => mp.sub
  | .bin .mul => mp.mul
  | .bin .div => mp.div
  | .bin .rem => mp.rem
  | .jmp => mp.jmp

/-- The selector number of an operand (R58). -/
def SelectorMap.code (mp : SelectorMap) : Sel → BitVec 3
  | .a => mp.a
  | .b => mp.b
  | .c => mp.c
  | .d => mp.d
  | .zero => mp.zero
  | .one => mp.one
  | .m => mp.m
  | .reserved => mp.reserved

/-- The number of a comparison code (R62). -/
def CmpMap.code (mp : CmpMap) : Cmp → BitVec 3
  | .nv => mp.nv
  | .eq => mp.eq
  | .lt => mp.lt
  | .le => mp.le
  | .al => mp.al
  | .ne => mp.ne
  | .ge => mp.ge
  | .gt => mp.gt

/-- The operation an opcode number is assigned to, if any (R64). -/
def OpcodeMap.op? (mp : OpcodeMap) (bits : BitVec 4) : Option Op := Op.all.find? fun o => mp.code o == bits

/-- The operand a selector number names. -/
def SelectorMap.sel (mp : SelectorMap) (bits : BitVec 3) : Sel :=
  (Sel.all.find? fun s => mp.code s == bits).getD .reserved

/-- The comparison a number names: always some one when the map is well formed. -/
def CmpMap.cmp? (mp : CmpMap) (bits : BitVec 3) : Option Cmp := Cmp.all.find? fun c => mp.code c == bits

/-- The destinations a 5-bit mask names (R60, R61). -/
def MaskMap.dests (mp : MaskMap) (bits : BitVec 5) : Dests where
  a := bits.getLsbD mp.a
  b := bits.getLsbD mp.b
  c := bits.getLsbD mp.c
  d := bits.getLsbD mp.d
  m := bits.getLsbD mp.m

/-- One bit of a mask, if it is wanted. -/
def maskBit (wanted : Bool) (k : Fin 5) : BitVec 5 := if wanted then BitVec.twoPow 5 k else 0

/-- The 5-bit mask of a set of destinations (R60). -/
def MaskMap.bits (mp : MaskMap) (ds : Dests) : BitVec 5 :=
  maskBit ds.a mp.a ||| maskBit ds.b mp.b ||| maskBit ds.c mp.c ||| maskBit ds.d mp.d ||| maskBit ds.m mp.m

/-- The maps a machine may be configured with: no two operations, operands, destinations or comparisons share a number
(92_eei_decisions.md D1 to D4: any injection). -/
abbrev Maps.WellFormed (mp : Maps) : Prop :=
  (Op.all.map mp.opcode.code).Nodup ∧ (Sel.all.map mp.selector.code).Nodup ∧
    [mp.mask.a, mp.mask.b, mp.mask.c, mp.mask.d, mp.mask.m].Nodup ∧ (Cmp.all.map mp.cmp.code).Nodup

/-! ## The decoder (30_encoding.md R69) -/

/-- Why a word is no instruction. -/
inductive DecodeError
  /-- The opcode number is assigned to no operation (R64). -/
  | reservedOpcode
  /-- The operand-A selector is the reserved one (R65). -/
  | reservedSelA
  /-- The opcode uses operand-B and its selector is the reserved one (R65). -/
  | reservedSelB
  /-- The comparison number is assigned to no comparison: only under a CMP_MAP that is not well formed. -/
  | unassignedCmp
  deriving DecidableEq, Repr

/-- The Operation shape (R53, R54): selB is examined only where the opcode uses it, and the two bits above a comparison
code never are (R66). -/
def decodeOperation (mp : Maps) (op : Op) (selA selB : BitVec 3) (low : BitVec 5) : Except DecodeError Instr :=
  let sa := mp.selector.sel selA
  let sb := mp.selector.sel selB
  if sa = .reserved then .error .reservedSelA
  else
    match op with
    | .un u => .ok (u.instr sa (mp.mask.dests low))
    | .bin f => if sb = .reserved then .error .reservedSelB else .ok (f.instr sa sb (mp.mask.dests low))
    | .jmp =>
      if sb = .reserved then .error .reservedSelB
      else
        match mp.cmp.cmp? (low.extractLsb' 0 3) with
        | some c => .ok (c.instr sa sb)
        | none => .error .unassignedCmp

/-- The decoder, total on the 65536 words (R69). -/
def decode (mp : Maps) (w : Word) : Except DecodeError Instr :=
  if w.getLsbD 15 = false then .ok (.ldi (w.extractLsb' 0 15))
  else
    match mp.opcode.op? (w.extractLsb' 11 4) with
    | none => .error .reservedOpcode
    | some op => decodeOperation mp op (w.extractLsb' 8 3) (w.extractLsb' 5 3) (w.extractLsb' 0 5)

/-! ## The encoder (30_encoding.md R70) -/

/-- A word of the Operation shape from its fields, most significant first: 1 oooo aaa bbb mmmmm (R53). -/
def operationWord (opcode : BitVec 4) (selA selB : BitVec 3) (low : BitVec 5) : Word :=
  1#1 ++ opcode ++ selA ++ selB ++ low

/-- The word of an instruction, ignored fields zero (R66, R70). -/
def encodeShape (mp : Maps) : Shape → Word
  | .imm v => 0#1 ++ v
  | .un u sa ds => operationWord (mp.opcode.code (.un u)) (mp.selector.code sa) 0 (mp.mask.bits ds)
  | .bin f sa sb ds =>
    operationWord (mp.opcode.code (.bin f)) (mp.selector.code sa) (mp.selector.code sb) (mp.mask.bits ds)
  | .jmp c sa sb =>
    operationWord (mp.opcode.code .jmp) (mp.selector.code sa) (mp.selector.code sb) (0#2 ++ mp.cmp.code c)

/-- The word of an instruction. -/
def encode (mp : Maps) (i : Instr) : Word := encodeShape mp i.shape

/-! ## The text of a word (R7, R70, R175) -/

/-- The character of one bit. -/
def bitChar (b : Bool) : Char := if b then '1' else '0'

/-- The 16 characters of a word, most significant bit first. -/
def textOfWord (w : Word) : String := String.ofList ((List.range 16).map fun k => bitChar (w.getMsbD k))

/-- The number that a run of the characters 0 and 1 spells after `acc`, most significant first. -/
def bitsValue : List Char → Nat → Option Nat
  | [], acc => some acc
  | ch :: rest, acc =>
    if ch = '0' then bitsValue rest (2 * acc) else if ch = '1' then bitsValue rest (2 * acc + 1) else none

/-- The word a text spells: exactly 16 characters, each 0 or 1 (70_reset_and_hazards.md R232). -/
def wordOfText (t : String) : Option Word :=
  if t.toList.length = 16 then (bitsValue t.toList 0).map (BitVec.ofNat 16) else none

/-! ## The host's view of the decoder -/

/-- What the decoder reads from an instruction whose bits are `w`: every instruction is one 16-bit word (R50), and bits
that the table gives no number are zero. -/
def decodeTableWord (nbits w : Nat) : Option Instr := (decode Maps.default (BitVec.ofNat 16 (w % 2 ^ nbits))).toOption

end Sys2Proof
end

