-- ==== Sys2Proof/Machine/Parameters.lean ====
section
/-! DEFINITION. The default values of the parameters and which values make sense (00_scope.md R6). -/

namespace Sys2Proof.Machine

/-- The defaults of R6. -/
def defaultParams : Params where
  maps := Maps.default
  memSize := 24576
  stepLimit := 16384
  progMax := 32768
  cmpSigned := true
  jmpTargetPolicy := .regA
  initMem := []

/-- What the rest of the spec relies on: maps that are injections (92_eei_decisions.md D1 to D4), a PROG_MAX for which the
increment of pc never wraps (10_state.md R16), and an INIT_MEM of valid cells (70_reset_and_hazards.md R234). -/
abbrev ParamsWellFormed (p : Params) : Prop :=
  p.maps.WellFormed ∧ p.progMax ≤ 32768 ∧ ∀ cell ∈ p.initMem, cell.1 < p.memSize

end Sys2Proof.Machine
end

