-- ==== Sys2Proof/Machine/State.lean ====
section
/-! DEFINITION. The state of the machine as plain data, all of 10_state.md R26, its value after reset (R27), and the
reasons a step of the model can end without a next state. -/

namespace Sys2Proof.Machine

/-- The three causes a fault status can hold (60_exceptions.md R207). -/
inductive Cause
  | illegalInstruction
  | memoryAddress
  | divideByZero
  deriving DecidableEq, Repr

/-- The status of the machine (10_state.md R19). -/
inductive Status
  | running
  | fault (cause : Cause) (info : Word)
  deriving DecidableEq, Repr

/-- The complete architectural state (10_state.md R26). -/
structure State where
  /-- Register A, the primary register (R10, R11). -/
  a : Word
  b : Word
  c : Word
  d : Word
  /-- The index of the next instruction in program memory (R15). -/
  pc : Word
  /-- Data memory (R23). -/
  mem : Memory
  /-- Instructions completed since load (R18). -/
  steps : Nat
  status : Status
  /-- Program memory, installed by load and never changed by a step (R22). -/
  prog : List Word
  /-- The parameters of 00_scope.md R6, never changed by a step (log 3). -/
  params : Params
  deriving DecidableEq, Repr

/-- The reasons a step could stop the model with a fault. The faults of the spec are not among them: they are next
states whose status is Fault (R91; log 1). -/
inductive Fault
  /-- Raised by step alone, when the machine is not halted and program memory has no word at pc. That never happens
  (R82: the halt check comes first), so it is safe. -/
  | fetchOutsideProgram
  deriving DecidableEq, Repr

/-- The reasons a step gives an instruction no meaning. -/
inductive Refusal
  /-- Raised by exec for an instruction that has no meaning yet: none. Safe. -/
  | notModelled (mnemonic : String)
  /-- Raised by the JMP forms, only when the parameter JMP_TARGET_POLICY is refuse_if_differs and the word is one on which
  the source's two readings of the target differ (44_jump.md R149). Off by default. Safe. -/
  | jumpTargetPolicy
  deriving DecidableEq, Repr

/-- The machine after load of the empty program with the default parameters (R27, R233; log 2). -/
def State.reset : State where
  a := 0
  b := 0
  c := 0
  d := 0
  pc := 0
  mem := []
  steps := 0
  status := .running
  prog := []
  params := defaultParams

end Sys2Proof.Machine
end

