-- ==== Sys2Proof/Machine/Ops.lean ====
section
/-! DEFINITION. The operations every instruction is built from: the halt predicate, fetch, access to registers and data
memory, raising a fault, writing back a result, and completing an instruction. -/

namespace Sys2Proof.Machine

/-- The four general registers (10_state.md R10). -/
inductive Reg
  | a | b | c | d
  deriving DecidableEq, Repr

/-- The read of a general register, x[r]. -/
def State.reg (s : State) : Reg → Word
  | .a => s.a
  | .b => s.b
  | .c => s.c
  | .d => s.d

/-- The write of a general register, x[r] <- v. -/
def State.setReg (s : State) (v : Word) : Reg → State
  | .a => { s with a := v }
  | .b => { s with b := v }
  | .c => { s with c := v }
  | .d => { s with d := v }

/-! ## Halting and fetching -/

/-- Whether the status is Fault (10_state.md R19). -/
def Status.isFault : Status → Bool
  | .running => false
  | .fault _ _ => true

/-- The halt predicate (10_state.md R20): a fault, the end of the program, or the step cap. -/
def State.halted (s : State) : Bool :=
  s.status.isFault || decide (s.prog.length ≤ s.pc.toNat) || decide (s.params.stepLimit ≤ s.steps)

/-- The word at pc, where program memory has one (40_execution_cycle.md R82). -/
def State.fetch (s : State) : Option Word := s.prog[s.pc.toNat]?

/-! ## Raising a fault -/

/-- A fault cause with the value it records (60_exceptions.md R207). -/
structure Raised where
  cause : Cause
  info : Word
  deriving DecidableEq, Repr

/-- The machine after a raise: the status changes and nothing else does (40_execution_cycle.md R91, 60_exceptions.md
R203, R215). -/
def State.raise (s : State) (r : Raised) : State := { s with status := .fault r.cause r.info }

/-- IllegalInstruction(w) (60_exceptions.md R204). -/
def illegalInstruction (w : Word) : Raised := ⟨.illegalInstruction, w⟩

/-- MemoryAddress(addr) (60_exceptions.md R205). -/
def memoryAddress (addr : Word) : Raised := ⟨.memoryAddress, addr⟩

/-- DivideByZero(w) (60_exceptions.md R206). -/
def divideByZero (w : Word) : Raised := ⟨.divideByZero, w⟩

/-- The outcome of an instruction's phases: the state they produce, or the state before with the fault they raise. -/
def finish (s : State) : Except Raised State → Host.Outcome State Fault Refusal
  | .ok t => .next t
  | .error r => .next (s.raise r)

/-! ## Data memory -/

/-- MemRead (20_memory.md R33): the cell, or MemoryAddress outside data memory. -/
def State.memRead (s : State) (addr : Word) : Except Raised Word :=
  if addr.toNat < s.params.memSize then .ok (s.mem.read addr.toNat) else .error (memoryAddress addr)

/-- The range check of M as a destination, made before compute (40_execution_cycle.md R84). -/
def State.checkDest (s : State) (ds : Dests) : Except Raised Unit :=
  if ds.m ∧ ¬ s.a.toNat < s.params.memSize then .error (memoryAddress s.a) else .ok ()

/-! ## Writing back and completing -/

/-- Write-back (40_execution_cycle.md R87, R88): every destination of the mask receives the result at once, M at the
address register A held before. -/
def State.writeBack (s : State) (ds : Dests) (result : Word) : State :=
  { s with
    a := if ds.a then result else s.a
    b := if ds.b then result else s.b
    c := if ds.c then result else s.c
    d := if ds.d then result else s.d
    mem := if ds.m then s.mem.write s.a.toNat result else s.mem }

/-- The end of an instruction that does not jump: pc advances by one word and the step is counted
(40_execution_cycle.md R89, R90). -/
def State.advance (s : State) : State := { s with pc := s.pc + 1, steps := s.steps + 1 }

/-- The end of a taken JMP: pc takes register A and the step is counted (40_execution_cycle.md R89, R90; 44_jump.md
R149). -/
def State.jumpToA (s : State) : State := { s with pc := s.a, steps := s.steps + 1 }

end Sys2Proof.Machine
end

