-- ==== Sys2Proof/Machine/Operands.lean ====
section
/-! DEFINITION. The operand forms (30_encoding.md R59) and the operand-fetch phase (40_execution_cycle.md R84, R85). -/

namespace Sys2Proof.Machine

/-- The value a selector names, in the state at the start of the instruction whose word is `w` (30_encoding.md R59). -/
def operand (s : State) (w : Word) : Sel → Except Raised Word
  | .a => .ok s.a
  | .b => .ok s.b
  | .c => .ok s.c
  | .d => .ok s.d
  | .zero => .ok 0
  | .one => .ok 1
  | .m => s.memRead s.a
  | .reserved => .error (illegalInstruction w)

/-- The decode-phase check of the selectors an instruction uses, ahead of every other check (30_encoding.md R65,
60_exceptions.md R208). -/
def checkSelectors (w : Word) (sels : List Sel) : Except Raised Unit :=
  if .reserved ∈ sels then .error (illegalInstruction w) else .ok ()

/-- Operand fetch of a unary operation: operand-A, then the check of M as a destination. -/
def fetchUnary (s : State) (w : Word) (sa : Sel) (ds : Dests) : Except Raised Word := do
  checkSelectors w [sa]
  let opA ← operand s w sa
  s.checkDest ds
  return opA

/-- Operand fetch of a JMP: both operands, whatever the comparison. -/
def fetchPair (s : State) (w : Word) (sa sb : Sel) : Except Raised (Word × Word) := do
  checkSelectors w [sa, sb]
  let opA ← operand s w sa
  let opB ← operand s w sb
  return (opA, opB)

/-- Operand fetch of a binary operation: both operands, then the check of M as a destination. -/
def fetchBinary (s : State) (w : Word) (sa sb : Sel) (ds : Dests) : Except Raised (Word × Word) := do
  let ops ← fetchPair s w sa sb
  s.checkDest ds
  return ops

end Sys2Proof.Machine
end

