-- ==== Sys2Proof/Machine/Execute.lean ====
section
/-! DEFINITION. The phases common to each class of instruction (40_execution_cycle.md R84 to R91, R96): the meanings of
the instructions are one line each over these. -/

namespace Sys2Proof.Machine

/-- A unary operation with result function `f`; `i` is the instruction itself, for the word a fault records (R113). -/
def unary (f : Word → Word) (i : Instr) (sa : Sel) (ds : Dests) (s : State) : Host.Outcome State Fault Refusal :=
  finish s do
    let opA ← fetchUnary s (encode s.params.maps i) sa ds
    return (s.writeBack ds (f opA)).advance

/-- A binary operation with result function `g` (R120). -/
def binary (g : Word → Word → Word) (i : Instr) (sa sb : Sel) (ds : Dests) (s : State) :
    Host.Outcome State Fault Refusal :=
  finish s do
    let (opA, opB) ← fetchBinary s (encode s.params.maps i) sa sb ds
    return (s.writeBack ds (g opA opB)).advance

/-- DIV and REM: a binary operation that raises DivideByZero after operand fetch, whatever the mask (R86, R206). -/
def divide (g : Word → Word → Word) (i : Instr) (sa sb : Sel) (ds : Dests) (s : State) :
    Host.Outcome State Fault Refusal :=
  finish s do
    let (opA, opB) ← fetchBinary s (encode s.params.maps i) sa sb ds
    if opB = 0 then .error (divideByZero (encode s.params.maps i)) else .ok (s.writeBack ds (g opA opB)).advance

/-- Whether JMP_TARGET_POLICY refuses a JMP word (44_jump.md R149): the two readings of its target could differ. -/
def refusedByPolicy (p : Params) (cmp : Cmp) (sa : Sel) : Bool :=
  p.jmpTargetPolicy == .refuseIfDiffers && sa != .a && cmp != .nv

/-- A JMP (44_jump.md R140): both operands are fetched whatever the comparison; the target is register A. -/
def jump (cmp : Cmp) (sa sb : Sel) (s : State) : Host.Outcome State Fault Refusal :=
  if .reserved ∉ [sa, sb] ∧ refusedByPolicy s.params cmp sa then .refused .jumpTargetPolicy
  else
    finish s do
      let (opA, opB) ← fetchPair s (encode s.params.maps (cmp.instr sa sb)) sa sb
      return if taken s.params.cmpSigned cmp opA opB then s.jumpToA else s.advance

end Sys2Proof.Machine
end

