-- ==== Sys2Proof/Machine/Binary.lean ====
section
/-! DEFINITION. The meanings of the binary operations (43_binary.md). -/

namespace Sys2Proof.Machine

/-- AND (R121, R120). -/
def execAnd (sa sb : Sel) (ds : Dests) (s : State) : Host.Outcome State Fault Refusal :=
  binary andResult (.and sa sb ds) sa sb ds s

/-- OR (R122, R120). -/
def execOr (sa sb : Sel) (ds : Dests) (s : State) : Host.Outcome State Fault Refusal :=
  binary orResult (.or sa sb ds) sa sb ds s

/-- XOR (R123, R120). -/
def execXor (sa sb : Sel) (ds : Dests) (s : State) : Host.Outcome State Fault Refusal :=
  binary xorResult (.xor sa sb ds) sa sb ds s

/-- ADD (R124, R120). -/
def execAdd (sa sb : Sel) (ds : Dests) (s : State) : Host.Outcome State Fault Refusal :=
  binary addResult (.add sa sb ds) sa sb ds s

/-- SUB (R125, R120). -/
def execSub (sa sb : Sel) (ds : Dests) (s : State) : Host.Outcome State Fault Refusal :=
  binary subResult (.sub sa sb ds) sa sb ds s

/-- MUL (R126, R120). -/
def execMul (sa sb : Sel) (ds : Dests) (s : State) : Host.Outcome State Fault Refusal :=
  binary mulResult (.mul sa sb ds) sa sb ds s

/-- DIV (R127, R120). -/
def execDiv (sa sb : Sel) (ds : Dests) (s : State) : Host.Outcome State Fault Refusal :=
  divide divResult (.div sa sb ds) sa sb ds s

/-- REM (R128, R120). -/
def execRem (sa sb : Sel) (ds : Dests) (s : State) : Host.Outcome State Fault Refusal :=
  divide remResult (.rem sa sb ds) sa sb ds s

end Sys2Proof.Machine
end

