-- ==== Sys2Proof/Machine/Immediate.lean ====
section
/-! DEFINITION. The meaning of LDI (41_immediate.md). -/

namespace Sys2Proof.Machine

/-- LDI (R100): register A takes the 15-bit literal, zero-extended; no operand is fetched and nothing can be raised. -/
def execLdi (imm : BitVec 15) (s : State) : Host.Outcome State Fault Refusal :=
  .next ({ s with a := imm.zeroExtend 16 } : State).advance

end Sys2Proof.Machine
end

