-- ==== Sys2Proof/Machine/Jump.lean ====
section
/-! DEFINITION. The meanings of the eight JMP forms (44_jump.md R140 to R149). -/

namespace Sys2Proof.Machine

/-- JMP.NV (R141). -/
def execJmpNv (sa sb : Sel) (s : State) : Host.Outcome State Fault Refusal :=
  jump .nv sa sb s

/-- JMP.EQ (R142). -/
def execJmpEq (sa sb : Sel) (s : State) : Host.Outcome State Fault Refusal :=
  jump .eq sa sb s

/-- JMP.LT (R143). -/
def execJmpLt (sa sb : Sel) (s : State) : Host.Outcome State Fault Refusal :=
  jump .lt sa sb s

/-- JMP.LE (R144). -/
def execJmpLe (sa sb : Sel) (s : State) : Host.Outcome State Fault Refusal :=
  jump .le sa sb s

/-- JMP.AL (R145). -/
def execJmpAl (sa sb : Sel) (s : State) : Host.Outcome State Fault Refusal :=
  jump .al sa sb s

/-- JMP.NE (R146). -/
def execJmpNe (sa sb : Sel) (s : State) : Host.Outcome State Fault Refusal :=
  jump .ne sa sb s

/-- JMP.GE (R147). -/
def execJmpGe (sa sb : Sel) (s : State) : Host.Outcome State Fault Refusal :=
  jump .ge sa sb s

/-- JMP.GT (R148). -/
def execJmpGt (sa sb : Sel) (s : State) : Host.Outcome State Fault Refusal :=
  jump .gt sa sb s

end Sys2Proof.Machine
end

