-- ==== Sys2Proof/Machine/Unary.lean ====
section
/-! DEFINITION. The meanings of the unary operations (42_unary.md). -/

namespace Sys2Proof.Machine

/-- COPY (R110, R113). -/
def execCopy (sa : Sel) (ds : Dests) (s : State) : Host.Outcome State Fault Refusal :=
  unary copyResult (.copy sa ds) sa ds s

/-- NOT (R111, R113). -/
def execNot (sa : Sel) (ds : Dests) (s : State) : Host.Outcome State Fault Refusal :=
  unary notResult (.not sa ds) sa ds s

/-- NEG (R112, R113). -/
def execNeg (sa : Sel) (ds : Dests) (s : State) : Host.Outcome State Fault Refusal :=
  unary negResult (.neg sa ds) sa ds s

end Sys2Proof.Machine
end

