-- ==== Sys2Proof/Machine/Dispatch.lean ====
section
/-! DEFINITION. From an instruction to its meaning: one arm per constructor of Instr (40_execution_cycle.md R96). -/

namespace Sys2Proof.Machine

def exec (i : Instr) (s : State) : Host.Outcome State Fault Refusal :=
  match i with
  | .ldi imm => Sys2Proof.Machine.execLdi imm s
  | .copy sa ds => Sys2Proof.Machine.execCopy sa ds s
  | .not sa ds => Sys2Proof.Machine.execNot sa ds s
  | .neg sa ds => Sys2Proof.Machine.execNeg sa ds s
  | .and sa sb ds => Sys2Proof.Machine.execAnd sa sb ds s
  | .or sa sb ds => Sys2Proof.Machine.execOr sa sb ds s
  | .xor sa sb ds => Sys2Proof.Machine.execXor sa sb ds s
  | .add sa sb ds => Sys2Proof.Machine.execAdd sa sb ds s
  | .sub sa sb ds => Sys2Proof.Machine.execSub sa sb ds s
  | .mul sa sb ds => Sys2Proof.Machine.execMul sa sb ds s
  | .div sa sb ds => Sys2Proof.Machine.execDiv sa sb ds s
  | .rem sa sb ds => Sys2Proof.Machine.execRem sa sb ds s
  | .jmpNv sa sb => Sys2Proof.Machine.execJmpNv sa sb s
  | .jmpEq sa sb => Sys2Proof.Machine.execJmpEq sa sb s
  | .jmpLt sa sb => Sys2Proof.Machine.execJmpLt sa sb s
  | .jmpLe sa sb => Sys2Proof.Machine.execJmpLe sa sb s
  | .jmpAl sa sb => Sys2Proof.Machine.execJmpAl sa sb s
  | .jmpNe sa sb => Sys2Proof.Machine.execJmpNe sa sb s
  | .jmpGe sa sb => Sys2Proof.Machine.execJmpGe sa sb s
  | .jmpGt sa sb => Sys2Proof.Machine.execJmpGt sa sb s

end Sys2Proof.Machine
end

