-- ==== Sys2Proof/Machine/Step.lean ====
section
/-! DEFINITION. One step of the machine (40_execution_cycle.md R80 to R83, R96), and where an instruction stands that the
next step is to run. -/

namespace Sys2Proof.Machine

/-- One step: nothing when the machine is halted (R81); otherwise the word at pc is decoded and run, or raises
IllegalInstruction (R83). -/
def step (s : State) : Host.Outcome State Fault Refusal :=
  if s.halted then .next s
  else
    match s.fetch with
    | none => .fault .fetchOutsideProgram
    | some w =>
      match decode s.params.maps w with
      | .error _ => .next (s.raise (illegalInstruction w))
      | .ok i => exec i s

/-- `s` with the word `w` at pc in program memory, and not halted, so that the next step fetches and runs it: program
memory is lengthened with zero words up to pc where it is shorter, a fault is cleared, and a step count at or over
STEP_LIMIT goes back to 0. It stands for the load of that program (log 2). -/
def State.withFetchWord (s : State) (nbits w : Nat) : State :=
  { s with
    prog := s.prog.take s.pc.toNat ++ List.replicate (s.pc.toNat - s.prog.length) 0 ++
      BitVec.ofNat 16 (w % 2 ^ nbits) :: s.prog.drop (s.pc.toNat + 1)
    status := .running
    steps := if s.steps < s.params.stepLimit then s.steps else 0 }

end Sys2Proof.Machine
end

