-- ==== Sys2Proof/Machine/Disassembler.lean ====
section
/-! DEFINITION. The disassembler (45_assembler.md R180 to R186): one word to a symbolic line, or the reason it is no
instruction. -/

namespace Sys2Proof.Machine

/-- The digits of a number below ten to the `fuel`, most significant first, before `acc`. -/
def decimalDigits : Nat → Nat → List Char → List Char
  | 0, _, acc => acc
  | fuel + 1, n, acc =>
    if n < 10 then Char.ofNat ('0'.toNat + n) :: acc
    else decimalDigits fuel (n / 10) (Char.ofNat ('0'.toNat + n % 10) :: acc)

/-- A 15-bit value in decimal: at most five digits (R181). -/
def decimalText (v : BitVec 15) : List Char := decimalDigits 5 v.toNat []

/-- The spelling of an operand (30_encoding.md R58). The reserved selector is in no decoded instruction. -/
def selText : Sel → List Char
  | .a => ['A']
  | .b => ['B']
  | .c => ['C']
  | .d => ['D']
  | .zero => ['0']
  | .one => ['1']
  | .m => ['M']
  | .reserved => ['?']

/-- The letters of a mask, in the order A, B, C, D, M (R182). -/
def destsText (ds : Dests) : List Char :=
  (if ds.a then ['A'] else []) ++ (if ds.b then ['B'] else []) ++ (if ds.c then ['C'] else []) ++
    (if ds.d then ['D'] else []) ++ (if ds.m then ['M'] else [])

/-- The prefix of a unary operation (R164, R182). -/
def unopText : UnOp → List Char
  | .copy => []
  | .not => ['!']
  | .neg => ['-']

/-- The operator of a binary operation (R164). -/
def binopText : BinOp → List Char
  | .and => ['&']
  | .or => ['|']
  | .xor => ['^']
  | .add => ['+']
  | .sub => ['-']
  | .mul => ['*']
  | .div => ['/']
  | .rem => ['%']

/-- The spelling of a comparison (R169); the two codes that have none are printed by other rules. -/
def cmpText : Cmp → List Char
  | .nv => []
  | .eq => ['=', '=']
  | .lt => ['<']
  | .le => ['<', '=']
  | .al => []
  | .ne => ['!', '=']
  | .ge => ['>', '=']
  | .gt => ['>']

/-- The line of an operation, or the no-op of an empty mask (R182, R186). -/
def setText (ds : Dests) (expr : List Char) : List Char :=
  if ds = .empty then ['N', 'O', 'P'] else destsText ds ++ ['='] ++ expr

/-- The line of a JMP (R183, R186). -/
def jumpText (cmp : Cmp) (sa sb : Sel) : List Char :=
  match cmp with
  | .nv => ['N', 'O', 'P']
  | .al => ['J', 'M', 'P']
  | .eq | .lt | .le | .ne | .ge | .gt =>
    ['J', 'M', 'P', ' '] ++ selText sa ++ [' '] ++ cmpText cmp ++ [' '] ++ selText sb

/-- The symbolic line of an instruction. -/
def instrText (i : Instr) : String :=
  String.ofList <|
    match i.shape with
    | .imm v => '@' :: decimalText v
    | .un u sa ds => setText ds (unopText u ++ selText sa)
    | .bin f sa sb ds => setText ds (selText sa ++ binopText f ++ selText sb)
    | .jmp c sa sb => jumpText c sa sb

/-- The disassembler (R180): the symbolic line of a word, or why the word is illegal (R186). -/
def disassemble (maps : Maps) (w : Word) : Except DecodeError String := (decode maps w).map instrText

end Sys2Proof.Machine
end

