-- ==== Sys2Proof/Machine/MemoryMap.lean ====
section
/-! DEFINITION. The partition of data memory (20_memory.md R38). The hardware enforces none of it: every cell is read and
written the same way (R39, R40). -/

namespace Sys2Proof.Machine

/-- The regions of R38, in rising order. -/
inductive Region
  | registersAndAliases | staticVariables | stack | heap | screen | keyboard | displaySegments | inputCell | outputCell
  | unused
  deriving DecidableEq, Repr

/-- A run of cells and the region it is. -/
structure RegionRow where
  first : Nat
  count : Nat
  region : Region
  deriving DecidableEq, Repr

/-- The table of R38. -/
def memoryMap : List RegionRow :=
  [⟨0, 16, .registersAndAliases⟩, ⟨16, 240, .staticVariables⟩, ⟨256, 1792, .stack⟩, ⟨2048, 14336, .heap⟩,
    ⟨16384, 4096, .screen⟩, ⟨20480, 1, .keyboard⟩, ⟨20481, 5, .displaySegments⟩, ⟨20486, 1, .inputCell⟩,
    ⟨20487, 1, .outputCell⟩, ⟨20488, 4088, .unused⟩]

/-- Whether a row covers a cell. -/
def RegionRow.covers (r : RegionRow) (addr : Nat) : Bool := decide (r.first ≤ addr) && decide (addr < r.first + r.count)

/-- The region of a cell, for the cells data memory has. -/
def regionOf (addr : Nat) : Option Region := (memoryMap.find? fun r => r.covers addr).map RegionRow.region

end Sys2Proof.Machine
end

