-- ==== Sys2Proof/Machine/Assembler.lean ====
section
/-! DEFINITION. The assembler (45_assembler.md R160 to R176): lines of symbolic text to the 16-character texts of their
words. Text is worked on as a list of characters; names keep their characters. -/

namespace Sys2Proof.Machine

/-- The characters of a label or variable name. -/
abbrev Name := List Char

/-! ## Statements -/

/-- What an immediate load or a literal operand is given by (R164, R167). -/
inductive Literal
  | num (n : Nat)
  | name (x : Name)
  deriving DecidableEq, Repr

/-- An operand of an operation statement: one with a selector code, or a literal (R164). -/
inductive AsmOperand
  | sel (s : Sel)
  | lit (v : Literal)
  deriving DecidableEq, Repr

/-- The right side of an operation statement (R164). -/
inductive Expr
  | un (u : UnOp) (x : AsmOperand)
  | bin (f : BinOp) (x y : AsmOperand)
  deriving DecidableEq, Repr

/-- The statement kinds (R162). -/
inductive Statement
  | imm (v : Literal)
  | set (ds : Dests) (e : Expr)
  | branch (r : Sel) (cmp : Cmp) (x : Sel) (label : Name)
  | goto (label : Name)
  | jump
  | labelDef (label : Name)
  deriving DecidableEq, Repr

/-- Whether an operand is a literal. -/
def AsmOperand.isLiteral : AsmOperand → Bool
  | .sel _ => false
  | .lit _ => true

/-- Whether the right side of a statement has a literal, which takes a word of its own (R166). -/
def Expr.hasLiteral : Expr → Bool
  | .un _ x => x.isLiteral
  | .bin _ x y => x.isLiteral || y.isLiteral

/-- How many words a statement becomes (the last column of R162). -/
def Statement.wordCount : Statement → Nat
  | .imm _ => 1
  | .set _ e => if e.hasLiteral then 2 else 1
  | .branch _ _ _ _ => 2
  | .goto _ => 2
  | .jump => 1
  | .labelDef _ => 0

/-- Why assembly fails; every error is fatal (R176). -/
inductive AsmErrorKind
  | badSyntax
  | undefinedRegister
  | literalRange
  | twoLiterals
  | emptyDests
  | repeatedDest
  | duplicateLabel (label : Name)
  | undefinedLabel (label : Name)
  deriving DecidableEq, Repr

/-- An error with the number of its line, from 0 (R176). -/
structure AsmError where
  line : Nat
  kind : AsmErrorKind
  deriving DecidableEq, Repr

/-- The largest number a 15-bit field holds (R167, R173). -/
def literalMax : Nat := 32767

/-! ## Lexical form (R161, R171) -/

/-- A number, a name, or any other single character that is neither a space nor a tab. -/
inductive Token
  | num (n : Nat)
  | name (x : Name)
  | sym (c : Char)
  deriving DecidableEq, Repr

/-- The characters a name may start with (R171). -/
def isNameStart (c : Char) : Bool := c.isAlpha || c == '_' || c == '.' || c == '$' || c == ':'

/-- The characters that continue a name or a number. -/
def isWordChar (c : Char) : Bool := isNameStart c || c.isDigit

/-- The number that a run of digits spells after `acc`. -/
def decimalValue (cs : List Char) (acc : Nat) : Nat := cs.foldl (fun n c => 10 * n + (c.toNat - '0'.toNat)) acc

/-- The token of an unbroken run of word characters: all digits, or a name that does not start with a digit. -/
def wordToken : List Char → Option Token
  | [] => none
  | c :: cs =>
    if (c :: cs).all Char.isDigit then some (.num (decimalValue (c :: cs) 0))
    else if isNameStart c then some (.name (c :: cs)) else none

/-- The tokens of a line after a run of word characters `run` (kept reversed). -/
def tokensAfter (run : List Char) (rest : List Token) : Option (List Token) :=
  match run with
  | [] => some rest
  | c :: cs => (wordToken (c :: cs).reverse).map fun t => t :: rest

/-- The tokens of a line without its comment; `none` for a run that is neither a name nor a number. -/
def tokenize : List Char → List Char → Option (List Token)
  | [], run => tokensAfter run []
  | c :: cs, run =>
    if isWordChar c then tokenize cs (c :: run)
    else
      match tokenize cs [] with
      | none => none
      | some rest => tokensAfter run (if c = ' ' ∨ c = '\t' then rest else .sym c :: rest)

/-- A line without the comment that `#` starts. -/
def stripComment (line : List Char) : List Char := line.takeWhile (· ≠ '#')

/-! ## Parsing one line -/

/-- The register or pseudo-register a letter names (R58, R60). -/
def letterSel : Char → Option Sel
  | 'A' => some .a
  | 'B' => some .b
  | 'C' => some .c
  | 'D' => some .d
  | 'M' => some .m
  | _ => none

/-- The selector a one-letter name stands for. -/
def nameSel : Name → Option Sel
  | [c] => letterSel c
  | _ => none

/-- A mask with one more destination, unless it holds it already. -/
def addDest (ds : Dests) : Sel → Option Dests
  | .a => if ds.a then none else some { ds with a := true }
  | .b => if ds.b then none else some { ds with b := true }
  | .c => if ds.c then none else some { ds with c := true }
  | .d => if ds.d then none else some { ds with d := true }
  | .m => if ds.m then none else some { ds with m := true }
  | .zero => none
  | .one => none
  | .reserved => none

/-- The destinations that a run of letters names (R163). DESIGN CHOICE (log 18): a character of the run that is no letter (a
digit, `_`, `.`, `$` or `:`, as in A1=D) is reported as an undefined register too; R163 names that error for a letter. -/
def parseDests : Name → Dests → Except AsmErrorKind Dests
  | [], ds => .ok ds
  | c :: cs, ds =>
    match letterSel c with
    | none => .error .undefinedRegister
    | some r =>
      match addDest ds r with
      | none => .error .repeatedDest
      | some ds' => parseDests cs ds'

/-- A number that fits the 15-bit field (R167). -/
def checkedNum (n : Nat) : Except AsmErrorKind Literal := if n ≤ literalMax then .ok (.num n) else .error .literalRange

/-- An operand of an operation statement (R164). -/
def parseOperand : Token → Except AsmErrorKind AsmOperand
  | .num 0 => .ok (.sel .zero)
  | .num 1 => .ok (.sel .one)
  | .num n => (checkedNum n).map .lit
  | .name x =>
    match nameSel x with
    | some s => .ok (.sel s)
    | none => .ok (.lit (.name x))
  | .sym _ => .error .badSyntax

/-- The binary operators (R164). -/
def binopOf : Char → Option BinOp
  | '&' => some .and
  | '|' => some .or
  | '^' => some .xor
  | '+' => some .add
  | '-' => some .sub
  | '*' => some .mul
  | '/' => some .div
  | '%' => some .rem
  | _ => none

/-- The right side of an operation statement; at most one operand is a literal (R164, R166). -/
def parseExpr : List Token → Except AsmErrorKind Expr
  | [x] => do return .un .copy (← parseOperand x)
  | [.sym '!', x] => do return .un .not (← parseOperand x)
  | [.sym '-', x] => do return .un .neg (← parseOperand x)
  | [x, .sym o, y] => do
    let px ← parseOperand x
    match binopOf o with
    | none => .error .badSyntax
    | some f =>
      let py ← parseOperand y
      match px, py with
      | .lit _, .lit _ => .error .twoLiterals
      | _, _ => .ok (.bin f px py)
  | _ => .error .badSyntax

/-- The right operand of a conditional branch: a register or the constants 0 and 1 (R169). -/
def parseBranchOperand : Token → Except AsmErrorKind Sel
  | .num 0 => .ok .zero
  | .num 1 => .ok .one
  | .num _ => .error .badSyntax
  | .name x =>
    match nameSel x with
    | some s => .ok s
    | none => .error .badSyntax
  | .sym _ => .error .badSyntax

/-- A conditional branch after its comparison operator (R169). DESIGN CHOICE (log 18): a name on the left that is not one of
the five letters, whatever its characters, is reported as an undefined register. -/
def parseBranch (r : Name) (cmp : Cmp) : List Token → Except AsmErrorKind Statement
  | [x, .sym '?', .name label] =>
    match nameSel r with
    | none => .error .undefinedRegister
    | some s => do return .branch s cmp (← parseBranchOperand x) label
  | _ => .error .badSyntax

/-- A statement from the tokens of its line; `none` for a line with none (R161, R162). -/
def parseStatement : List Token → Except AsmErrorKind (Option Statement)
  | [] => .ok none
  | [.sym '@', .num n] => do return some (.imm (← checkedNum n))
  | [.sym '@', .name x] => .ok (some (.imm (.name x)))
  | [.sym '(', .name x, .sym ')'] => .ok (some (.labelDef x))
  | [.name x] => if x = "JUMP".toList then .ok (some .jump) else .error .badSyntax
  | [.name x, .name label] => if x = "GOTO".toList then .ok (some (.goto label)) else .error .badSyntax
  | .name r :: .sym '=' :: .sym '=' :: rest => do return some (← parseBranch r .eq rest)
  | .name r :: .sym '<' :: .sym '=' :: rest => do return some (← parseBranch r .le rest)
  | .name r :: .sym '!' :: .sym '=' :: rest => do return some (← parseBranch r .ne rest)
  | .name r :: .sym '>' :: .sym '=' :: rest => do return some (← parseBranch r .ge rest)
  | .name r :: .sym '<' :: rest => do return some (← parseBranch r .lt rest)
  | .name r :: .sym '>' :: rest => do return some (← parseBranch r .gt rest)
  | .name r :: .sym '=' :: rest => do
    let ds ← parseDests r .empty
    return some (.set ds (← parseExpr rest))
  | .sym '=' :: _ => .error .emptyDests
  | _ => .error .badSyntax

/-- The statement of one line of text, comment and blanks included. -/
def parseLine (line : String) : Except AsmErrorKind (Option Statement) :=
  match tokenize (stripComment line.toList) [] with
  | none => .error .badSyntax
  | some tokens => parseStatement tokens

/-- A statement with the number of its line. -/
abbrev Numbered := Nat × Statement

/-- Every line parsed, lines without a statement left out (R173 step 1). -/
def parseLines : Nat → List String → Except AsmError (List Numbered)
  | _, [] => .ok []
  | k, line :: rest =>
    match parseLine line with
    | .error e => .error ⟨k, e⟩
    | .ok none => parseLines (k + 1) rest
    | .ok (some st) => (parseLines (k + 1) rest).map fun sts => (k, st) :: sts

/-! ## Labels and variables -/

/-- The first pass: the labels defined, or the second definition of one (R168, R173 step 2). -/
def collectLabels : List Numbered → List Name → Except AsmError (List Name)
  | [], seen => .ok seen
  | (k, .labelDef x) :: rest, seen =>
    if x ∈ seen then .error ⟨k, .duplicateLabel x⟩ else collectLabels rest (x :: seen)
  | (_, .imm _) :: rest, seen => collectLabels rest seen
  | (_, .set _ _) :: rest, seen => collectLabels rest seen
  | (_, .branch _ _ _ _) :: rest, seen => collectLabels rest seen
  | (_, .goto _) :: rest, seen => collectLabels rest seen
  | (_, .jump) :: rest, seen => collectLabels rest seen

/-- A pre-binary form: a resolved instruction, or an immediate load whose label has no index yet (R174). -/
inductive PreForm
  | ready (i : Instr)
  | pending (line : Nat) (label : Name)
  deriving DecidableEq, Repr

/-- What a name is bound to, the first binding winning. -/
def lookupName : List (Name × Nat) → Name → Option Nat
  | [], _ => none
  | (y, n) :: rest, x => if y = x then some n else lookupName rest x

/-- The tables of the second pass (R168, R171): the forms so far in order, the labels met with their instruction index,
the variables, and the next free variable address. -/
structure Tables where
  forms : List PreForm
  labels : List (Name × Nat)
  vars : List (Name × Nat)
  nextVar : Nat
  deriving DecidableEq, Repr

/-- The first address a new variable gets (R171). -/
def firstVariable : Nat := 16

/-- One more form at the end. -/
def Tables.emit (t : Tables) (p : PreForm) : Tables := { t with forms := t.forms ++ [p] }

/-- An immediate load of a number that fits its field (R167). -/
def Tables.emitLdi (t : Tables) (line n : Nat) : Except AsmError Tables :=
  if n ≤ literalMax then .ok (t.emit (.ready (.ldi (BitVec.ofNat 15 n)))) else .error ⟨line, .literalRange⟩

/-- The immediate load of a literal: a name is a label if any line defines it, otherwise a variable, allocated on first
sight (R167, R171). -/
def Tables.emitLiteral (labelNames : List Name) (t : Tables) (line : Nat) : Literal → Except AsmError Tables
  | .num n => t.emitLdi line n
  | .name x =>
    if x ∈ labelNames then .ok (t.emit (.pending line x))
    else
      match lookupName t.vars x with
      | some addr => t.emitLdi line addr
      | none => ({ t with vars := t.vars ++ [(x, t.nextVar)], nextVar := t.nextVar + 1 } : Tables).emitLdi line t.nextVar

/-- The lowering of an operation statement: one word, or with a literal the two words of R166. -/
def Tables.emitSet (labelNames : List Name) (t : Tables) (line : Nat) (ds : Dests) : Expr → Except AsmError Tables
  | .un u (.sel s) => .ok (t.emit (.ready (u.instr s ds)))
  | .un u (.lit v) => do return (← t.emitLiteral labelNames line v).emit (.ready (u.instr .a ds))
  | .bin f (.sel s) (.sel s') => .ok (t.emit (.ready (f.instr s s' ds)))
  | .bin f (.lit v) (.sel s) => do return (← t.emitLiteral labelNames line v).emit (.ready (f.instr .a s ds))
  | .bin f (.sel s) (.lit v) => do return (← t.emitLiteral labelNames line v).emit (.ready (f.instr s .a ds))
  | .bin _ (.lit _) (.lit _) => .error ⟨line, .twoLiterals⟩

/-- The definition of a label at the running instruction index, which must fit the 15-bit field whether or not the label is
used (R168, R173, R176). -/
def Tables.defineLabel (t : Tables) (line : Nat) (x : Name) : Except AsmError Tables :=
  if t.forms.length ≤ literalMax then .ok { t with labels := t.labels ++ [(x, t.forms.length)] }
  else .error ⟨line, .literalRange⟩

/-- The second pass over one statement (R166 to R172). -/
def Tables.lower (labelNames : List Name) (t : Tables) : Numbered → Except AsmError Tables
  | (line, .imm v) => t.emitLiteral labelNames line v
  | (line, .set ds e) => t.emitSet labelNames line ds e
  | (line, .branch r cmp x label) => .ok ((t.emit (.pending line label)).emit (.ready (cmp.instr r x)))
  | (line, .goto label) => .ok ((t.emit (.pending line label)).emit (.ready (.jmpAl .a .a)))
  | (_, .jump) => .ok (t.emit (.ready (.jmpAl .a .a)))
  | (line, .labelDef x) => t.defineLabel line x

/-- The second pass (R173 step 3). -/
def Tables.lowerAll (labelNames : List Name) : Tables → List Numbered → Except AsmError Tables
  | t, [] => .ok t
  | t, st :: rest =>
    match t.lower labelNames st with
    | .error e => .error e
    | .ok t' => Tables.lowerAll labelNames t' rest

/-- The third pass over one form (R173 step 4). The index fits wherever the second pass made the table; a table with a larger
one is refused, never truncated. -/
def resolve (labels : List (Name × Nat)) : PreForm → Except AsmError Instr
  | .ready i => .ok i
  | .pending line x =>
    match lookupName labels x with
    | none => .error ⟨line, .undefinedLabel x⟩
    | some n => if n ≤ literalMax then .ok (.ldi (BitVec.ofNat 15 n)) else .error ⟨line, .literalRange⟩

/-- The third pass. -/
def resolveAll (labels : List (Name × Nat)) : List PreForm → Except AsmError (List Instr)
  | [] => .ok []
  | p :: rest =>
    match resolve labels p with
    | .error e => .error e
    | .ok i => (resolveAll labels rest).map fun is => i :: is

/-- The instructions of a program text: the whole sequence or an error, never a part (R160, R173 steps 1 to 4).
`predefined` is the parameter PREDEFINED_SYMBOLS (R171; log 19). -/
def assembleInstrs (predefined : List (Name × Nat)) (lines : List String) : Except AsmError (List Instr) := do
  let statements ← parseLines 0 lines
  let labelNames ← collectLabels statements []
  let tables ← Tables.lowerAll labelNames ⟨[], [], predefined, firstVariable⟩ statements
  resolveAll tables.labels tables.forms

/-- assemble (R160, R173 step 5, R175): the texts that load takes. -/
def assemble (maps : Maps) (predefined : List (Name × Nat)) (lines : List String) : Except AsmError (List String) :=
  (assembleInstrs predefined lines).map fun is => is.map fun i => textOfWord (encode maps i)

end Sys2Proof.Machine
end

