-- ==== Sys2Proof/Machine/HostOps.lean ====
section
/-! DEFINITION. The host interface (70_reset_and_hazards.md R242): load, step's Boolean, run, and the outcome of a run. -/

namespace Sys2Proof.Machine

/-! ## load -/

/-- Why load refuses a program (R232). -/
inductive LoadRefusal
  /-- An element is not exactly 16 characters, each 0 or 1. -/
  | malformedWord
  /-- More words than PROG_MAX. -/
  | tooManyWords
  deriving DecidableEq, Repr

/-- The state after load installs the words `prog` under the parameters `p` (10_state.md R27, R230, R234). -/
def freshState (p : Params) (prog : List Word) : State where
  a := 0
  b := 0
  c := 0
  d := 0
  pc := 0
  mem := Memory.writeAll [] p.initMem
  steps := 0
  status := .running
  prog := prog
  params := p

/-- The words of a program's texts, if every one is well formed (R232). -/
def wordsOfTexts : List String → Option (List Word)
  | [] => some []
  | t :: rest =>
    match wordOfText t, wordsOfTexts rest with
    | some w, some ws => some (w :: ws)
    | _, _ => none

/-- load (R230 to R234): accepted in any state, with nothing of that state surviving but the parameters, or refused with
no state at all. -/
def load (s : State) (program : List String) : Except LoadRefusal State :=
  match wordsOfTexts program with
  | none => .error .malformedWord
  | some words => if words.length ≤ s.params.progMax then .ok (freshState s.params words) else .error .tooManyWords

/-! ## step and run -/

/-- What step returns: whether execution may continue, read on the new state (40_execution_cycle.md R92). A refused
instruction returns false. -/
def stepReturns (s : State) : Bool :=
  match step s with
  | .next t => !t.halted
  | .fault _ => false
  | .refused _ => false

/-- Steps until one returns false, at most `fuel` of them. -/
def runFor : Nat → State → Host.Outcome State Fault Refusal
  | 0, s => .next s
  | fuel + 1, s =>
    match step s with
    | .next t => if t.halted then .next t else runFor fuel t
    | .fault r => .fault r
    | .refused r => .refused r

/-- run (R93): no more than STEP_LIMIT further steps can return true, so this fuel is never the reason it ends. -/
def run (s : State) : Host.Outcome State Fault Refusal := runFor (s.params.stepLimit - s.steps + 1) s

/-! ## The outcome of a run -/

/-- How a run ended (60_exceptions.md R210). -/
inductive RunOutcome
  | faulted (cause : Cause) (info : Word)
  | completed
  | didNotTerminate
  deriving DecidableEq, Repr

/-- The outcome of a halted state (60_exceptions.md R210): the end of the program comes before the step cap. -/
def outcome (s : State) : RunOutcome :=
  match s.status with
  | .fault cause info => .faulted cause info
  | .running => if s.prog.length ≤ s.pc.toNat then .completed else .didNotTerminate

end Sys2Proof.Machine
end

