-- ==== Sys2Proof/Safety.lean ====
section
/-! DEFINITION. What counts as a good state and a good end of a run, in the terms the statements use. -/

namespace Sys2Proof

open Machine

/-! ## The terms of the statements about one instruction -/

/-- The value of an operand the machine can read (30_encoding.md R59). The reserved selector has none; no statement reads
its line. -/
def operandValue (s : State) : Sel → Word
  | .a => s.a
  | .b => s.b
  | .c => s.c
  | .d => s.d
  | .zero => 0
  | .one => 1
  | .m => s.mem.read s.a.toNat
  | .reserved => 0

/-- Nothing in operand fetch can be raised (40_execution_cycle.md R84): no selector is the reserved one, and register A is
the index of a cell if M is an operand or a destination. -/
abbrev Readable (s : State) (sels : List Sel) (ds : Dests) : Prop :=
  .reserved ∉ sels ∧ ((.m ∈ sels ∨ ds.m = true) → s.a.toNat < s.params.memSize)

/-- `t` is `s` after a non-JMP operation with result `r` completes (40_execution_cycle.md R87 to R90): every destination of
the mask holds the result, M being the cell at the old A; pc is the next word's; one more step is counted; and every
other register, every other cell, the status, the program and the parameters are as before. -/
structure Completes (s t : State) (ds : Dests) (r : Word) : Prop where
  a : t.a = if ds.a then r else s.a
  b : t.b = if ds.b then r else s.b
  c : t.c = if ds.c then r else s.c
  d : t.d = if ds.d then r else s.d
  cell : ∀ k, t.mem.read k = if ds.m = true ∧ k = s.a.toNat then r else s.mem.read k
  pc : t.pc = s.pc + 1
  steps : t.steps = s.steps + 1
  status : t.status = s.status
  prog : t.prog = s.prog
  params : t.params = s.params

/-- The instruction uses M, as an operand or as a destination (60_exceptions.md R205). -/
abbrev UsesM (i : Instr) : Prop := .m ∈ i.shape.sels ∨ i.shape.dests.m = true

/-- The selector that names a register as an operand (30_encoding.md R58). -/
def regSel : Reg → Sel
  | .a => .a
  | .b => .b
  | .c => .c
  | .d => .d

/-- Whether a mask names a register (30_encoding.md R60). -/
def destReg (ds : Dests) : Reg → Bool
  | .a => ds.a
  | .b => ds.b
  | .c => ds.c
  | .d => ds.d

/-- A word with the fields its instruction ignores cleared: selB of a unary word, bits 4 and 3 of a JMP word
(30_encoding.md R66, R70). -/
def clearIgnored (i : Instr) (w : Word) : Word :=
  match i.shape with
  | .imm _ => w
  | .un _ _ _ => w &&& 0xFF1F
  | .bin _ _ _ _ => w
  | .jmp _ _ _ => w &&& 0xFFE7

/-- How many words a list of statements becomes (45_assembler.md R162, R168). -/
def wordsBefore (statements : List Numbered) : Nat := (statements.map fun st => st.2.wordCount).sum

/-! ## Good states and good ends -/

/-- No instruction has faulted since load: the premise a claim about a program's result takes (60_exceptions.md R203). -/
def NoFault (s : State) : Prop := s.status = .running

/-- What a fault status records (60_exceptions.md R203 to R207): pc is still the index of the faulting instruction, and the
value is its word, or the address in register A that data memory does not have. -/
def FaultRecorded (s : State) : Prop :=
  match s.status with
  | .running => True
  | .fault .illegalInstruction w => s.fetch = some w ∧ ∀ i, decode s.params.maps w ≠ .ok i
  | .fault .memoryAddress addr => s.fetch.isSome ∧ addr = s.a ∧ s.params.memSize ≤ addr.toNat
  | .fault .divideByZero w =>
    s.fetch = some w ∧ ∃ sa sb ds, decode s.params.maps w = .ok (.div sa sb ds) ∨ decode s.params.maps w = .ok (.rem sa sb ds)

/-- The invariant of the machine: parameters the spec allows, a program that fits (10_state.md R22), canonical data memory
within MEM_SIZE (R23), a step count within the cap (60_exceptions.md R202), and a fault status that is right. -/
structure Invariant (s : State) : Prop where
  params : ParamsWellFormed s.params
  progFits : s.prog.length ≤ s.params.progMax
  memCanonical : s.mem.WellFormed
  memInRange : ∀ cell ∈ s.mem, cell.1 < s.params.memSize
  stepsWithinCap : s.steps ≤ s.params.stepLimit
  faultRecorded : FaultRecorded s

end Sys2Proof
end

