-- ==== Sys2Proof/Certificates/Slice0/Obligations.lean ====
section
/-! DEFINITION. The statements for the provers. Each docstring names the rule, or the sections and the spec's own decisions
(92_eei_decisions.md), that it formalises. A statement that rests on such a decision is derived, not stated. -/

open Sys2Proof Sys2Proof.Machine

/-! ## Encoding -/

/-- Encoding and decoding agree for every well-formed instruction and any well-formed numbering (30_encoding.md section 5;
the numbers are parameters, D1 to D4). -/
def Obligations.DecodeOfEncodeIsTheInstruction : Prop :=
  ∀ (mp : Maps) (i : Instr), mp.WellFormed → i.WellFormed → decode mp (encode mp i) = .ok i

/-- Encoding what a legal word decodes to gives the word back with its ignored fields cleared (30_encoding.md section 5;
which fields are ignored is D6). -/
def Obligations.EncodeOfDecodeClearsIgnoredFields : Prop :=
  ∀ (mp : Maps) (w : Word) (i : Instr), mp.WellFormed → decode mp w = .ok i → encode mp i = clearIgnored i w

/-- Under the default numbers the illegal words are exactly those with opcode 12 to 15, selA 7, or selB 7 where the
opcode uses selB (30_encoding.md section 4; D13). -/
def Obligations.DefaultDecoderRefusesExactlyTheReservedWords : Prop :=
  ∀ w : Word, (∃ e, decode Maps.default w = .error e) ↔
    w.getLsbD 15 = true ∧ (12 ≤ (w.extractLsb' 11 4).toNat ∨ (w.extractLsb' 8 3).toNat = 7 ∨
      3 ≤ (w.extractLsb' 11 4).toNat ∧ (w.extractLsb' 5 3).toNat = 7)

/-- Two words that differ only in ignored fields decode alike: selB where the opcode is unary, bits 4 and 3 where it is
JMP (30_encoding.md section 4; D6). -/
def Obligations.IgnoredFieldsAreNotDecoded : Prop :=
  ∀ (mp : Maps) (w w' : Word), w.getLsbD 15 = true →
    ((∃ u, mp.opcode.op? (w.extractLsb' 11 4) = some (.un u)) ∧ w &&& 0xFF1F = w' &&& 0xFF1F ∨
      mp.opcode.op? (w.extractLsb' 11 4) = some .jmp ∧ w &&& 0xFFE7 = w' &&& 0xFFE7) →
    decode mp w = decode mp w'

/-- A few words written out from the encoding tables decode as the tables say (95_test_vectors.md E-3, E-9, X-5, E-15, E-18,
X-7, X-4; the numbers are D1 to D4). -/
def Obligations.TableWordsDecodeAsWritten : Prop :=
  decode Maps.default 0x7FFF = .ok (.ldi 32767) ∧
  decode Maps.default 0x831F = .ok (.copy .d ⟨true, true, true, true, true⟩) ∧
  decode Maps.default 0x88E2 = .ok (.not .a ⟨false, false, false, true, false⟩) ∧
  decode Maps.default 0xB302 = .ok (.add .d .a ⟨false, false, false, true, false⟩) ∧
  decode Maps.default 0xCB08 = .ok (.div .d .a ⟨false, true, false, false, false⟩) ∧
  decode Maps.default 0xDB9F = .ok (.jmpGt .d .zero) ∧
  decode Maps.default 0xB0E2 = .error .reservedSelB

/-- The text of a word spells the word, and only the text of a word spells it (00_scope.md section 5, 45_assembler.md
section 5; that load accepts no other text is D21). -/
def Obligations.WordTextRoundTrip : Prop :=
  (∀ w : Word, wordOfText (textOfWord w) = some w) ∧ ∀ (t : String) (w : Word), wordOfText t = some w → textOfWord w = t

/-! ## Results of the instructions -/

/-- R100: register A takes the literal, zero-extended and equal to the word; pc advances; no other register and no cell
changes; nothing is raised, in any state. -/
def Obligations.LdiLoadsItsLiteral : Prop :=
  ∀ (v : BitVec 15) (s : State), (∀ mp : Maps, (encode mp (.ldi v)).toNat = v.toNat) ∧
    ∃ t, exec (.ldi v) s = .next t ∧ t.a.toNat = v.toNat ∧ t.a.getLsbD 15 = false ∧ t.pc = s.pc + 1 ∧ t.b = s.b ∧ t.c = s.c ∧
      t.d = s.d ∧ t.mem = s.mem ∧ t.status = s.status

/-- COPY completes wherever its operand and its destinations can be reached, with its operand as the result (42_unary.md;
the store at the old A is D14, the step count D18). -/
def Obligations.CopyCompletesWithItsOperand : Prop :=
  ∀ (s : State) (sa : Sel) (ds : Dests), s.mem.WellFormed → Readable s [sa] ds →
    ∃ t, exec (.copy sa ds) s = .next t ∧ Completes s t ds (operandValue s sa)

/-- NOT complements all 16 bits and NEG negates modulo 65536 (42_unary.md; the bitwise reading is D9, the wrap D7). -/
def Obligations.NotAndNegComplete : Prop :=
  ∀ (s : State) (sa : Sel) (ds : Dests), s.mem.WellFormed → Readable s [sa] ds →
    (∃ t r, exec (.not sa ds) s = .next t ∧ Completes s t ds r ∧ r.toNat = 65535 - (operandValue s sa).toNat) ∧
    ∃ t r, exec (.neg sa ds) s = .next t ∧ Completes s t ds r ∧ r.toNat = (65536 - (operandValue s sa).toNat) % 65536

/-- AND, OR and XOR work bit by bit (43_binary.md; the store at the old A is D14, the step count D18). -/
def Obligations.BitwiseOperationsComplete : Prop :=
  ∀ (s : State) (sa sb : Sel) (ds : Dests), s.mem.WellFormed → Readable s [sa, sb] ds →
    (∃ t r, exec (.and sa sb ds) s = .next t ∧ Completes s t ds r ∧
      ∀ k, r.getLsbD k = ((operandValue s sa).getLsbD k && (operandValue s sb).getLsbD k)) ∧
    (∃ t r, exec (.or sa sb ds) s = .next t ∧ Completes s t ds r ∧
      ∀ k, r.getLsbD k = ((operandValue s sa).getLsbD k || (operandValue s sb).getLsbD k)) ∧
    ∃ t r, exec (.xor sa sb ds) s = .next t ∧ Completes s t ds r ∧
      ∀ k, r.getLsbD k = ((operandValue s sa).getLsbD k ^^ (operandValue s sb).getLsbD k)

/-- ADD, SUB and MUL compute modulo 65536 (43_binary.md; the wrap is D7). -/
def Obligations.WrappingArithmeticCompletes : Prop :=
  ∀ (s : State) (sa sb : Sel) (ds : Dests), s.mem.WellFormed → Readable s [sa, sb] ds →
    (∃ t r, exec (.add sa sb ds) s = .next t ∧ Completes s t ds r ∧
      r.toNat = ((operandValue s sa).toNat + (operandValue s sb).toNat) % 65536) ∧
    (∃ t r, exec (.sub sa sb ds) s = .next t ∧ Completes s t ds r ∧
      r.toNat = (65536 + (operandValue s sa).toNat - (operandValue s sb).toNat) % 65536) ∧
    ∃ t r, exec (.mul sa sb ds) s = .next t ∧ Completes s t ds r ∧
      r.toNat = (operandValue s sa).toNat * (operandValue s sb).toNat % 65536

/-- DIV and REM with a divisor that is not zero give the floor quotient and the remainder that goes with it: a = b * q + r
on the signed readings, with r between 0 and b; the remainder is exact, and the quotient is unless it is 32768
(43_binary.md; the signed reading is D8, the wrapped quotient D11). -/
def Obligations.FloorDivisionCompletes : Prop :=
  ∀ (s : State) (sa sb : Sel) (ds : Dests), s.mem.WellFormed → Readable s [sa, sb] ds → operandValue s sb ≠ 0 →
    ∃ q r : Int, (operandValue s sa).toInt = (operandValue s sb).toInt * q + r ∧
      (0 ≤ r ∧ r < (operandValue s sb).toInt ∨ (operandValue s sb).toInt < r ∧ r ≤ 0) ∧
      (∃ t quo, exec (.div sa sb ds) s = .next t ∧ Completes s t ds quo ∧ quo = BitVec.ofInt 16 q ∧
        (q ≠ 32768 → quo.toInt = q)) ∧
      ∃ t rem, exec (.rem sa sb ds) s = .next t ∧ Completes s t ds rem ∧ rem.toInt = r

/-- JMP.EQ and JMP.NE compare the 16-bit patterns and go to register A or to the next word; nothing but pc and the step
count changes (44_jump.md section 2; register A as the target is D5, the step count D18). -/
def Obligations.JmpEqAndNeComplete : Prop :=
  ∀ (s : State) (sa sb : Sel), Readable s [sa, sb] .empty → (s.params.jmpTargetPolicy = .regA ∨ sa = .a) →
    exec (.jmpEq sa sb) s =
      .next { s with pc := if operandValue s sa = operandValue s sb then s.a else s.pc + 1, steps := s.steps + 1 } ∧
    exec (.jmpNe sa sb) s =
      .next { s with pc := if operandValue s sa = operandValue s sb then s.pc + 1 else s.a, steps := s.steps + 1 }

/-- JMP.LT, JMP.LE, JMP.GE and JMP.GT order their operands as signed words, or as unsigned ones when CMP_SIGNED is false
(44_jump.md section 2; the signed reading is D8, the target D5, the step count D18). -/
def Obligations.OrderingJmpsComplete : Prop :=
  ∀ (s : State) (sa sb : Sel) (x y : Word), Readable s [sa, sb] .empty → (s.params.jmpTargetPolicy = .regA ∨ sa = .a) →
    x = operandValue s sa → y = operandValue s sb →
    ∀ lt le : Bool, lt = (if s.params.cmpSigned then x.slt y else x.ult y) →
      le = (if s.params.cmpSigned then x.sle y else x.ule y) →
      exec (.jmpLt sa sb) s = .next { s with pc := if lt then s.a else s.pc + 1, steps := s.steps + 1 } ∧
      exec (.jmpLe sa sb) s = .next { s with pc := if le then s.a else s.pc + 1, steps := s.steps + 1 } ∧
      exec (.jmpGe sa sb) s = .next { s with pc := if lt then s.pc + 1 else s.a, steps := s.steps + 1 } ∧
      exec (.jmpGt sa sb) s = .next { s with pc := if le then s.pc + 1 else s.a, steps := s.steps + 1 }

/-- JMP.NV never jumps, under either target policy, and JMP.AL always does; both read their operands (44_jump.md section
2; D15 for the reading, D5 for the target, D18 for the step count). -/
def Obligations.NeverAndAlwaysJmpComplete : Prop :=
  ∀ (s : State) (sa sb : Sel), Readable s [sa, sb] .empty →
    exec (.jmpNv sa sb) s = .next { s with pc := s.pc + 1, steps := s.steps + 1 } ∧
    ((s.params.jmpTargetPolicy = .regA ∨ sa = .a) →
      exec (.jmpAl sa sb) s = .next { s with pc := s.a, steps := s.steps + 1 })

/-- Under JMP_TARGET_POLICY = refuse_if_differs exactly the JMP words whose two readings could differ have no meaning
(44_jump.md section 1; the policy is D5). The statement covers words that read M while register A is outside data memory:
that they are refused and do not raise MemoryAddress is the model's choice of order (DESIGN CHOICE, log 12); the spec says
only that the word is refused. -/
def Obligations.TargetPolicyRefusesOnlyDifferingJmps : Prop :=
  ∀ (c : Cmp) (s : State) (sa sb : Sel), s.params.jmpTargetPolicy = .refuseIfDiffers → .reserved ∉ [sa, sb] →
    (exec (c.instr sa sb) s = .refused .jumpTargetPolicy ↔ sa ≠ .a ∧ c ≠ .nv)

/-- Under the default numbers a comparison code's three bits are "equal", "less than" and "not": the condition is their
combination (30_encoding.md section 3; the numbers are D4, the signed reading D8). -/
def Obligations.ComparisonCodeBitsGiveTheCondition : Prop :=
  ∀ (c : Cmp) (x y : Word),
    taken true c x y =
      ((CmpMap.default.code c).getLsbD 2 ^^
        (((CmpMap.default.code c).getLsbD 0 && x == y) || ((CmpMap.default.code c).getLsbD 1 && x.slt y)))

/-- An operation with an empty mask and a JMP that never jumps write nothing, advance pc by 1 and count one step; they
still read their operands, and raise what operand fetch and a zero divisor raise (40_execution_cycle.md section 1; D15 for
the reading, D10 and D12 for the faults, D18 for the step count). -/
def Obligations.EmptyMaskAndNeverJumpOnlyAdvance : Prop :=
  ∀ (i : Instr) (s : State),
    ((∃ u sa, i.shape = .un u sa .empty) ∨ (∃ f sa sb, i.shape = .bin f sa sb .empty) ∨ ∃ sa sb, i = .jmpNv sa sb) →
    i.WellFormed →
    (.m ∈ i.shape.sels → s.params.memSize ≤ s.a.toNat →
      exec i s = .next { s with status := .fault .memoryAddress s.a }) ∧
    (Readable s i.shape.sels .empty →
      ((∃ sa sb, (i = .div sa sb .empty ∨ i = .rem sa sb .empty) ∧ operandValue s sb = 0) →
        exec i s = .next { s with status := .fault .divideByZero (encode s.params.maps i) }) ∧
      ((∀ sa sb, (i = .div sa sb .empty ∨ i = .rem sa sb .empty) → operandValue s sb ≠ 0) →
        exec i s = .next { s with pc := s.pc + 1, steps := s.steps + 1 }))

/-- An operation whose mask names both A and M leaves the result in A and in the cell at the old A, and no other cell
changes (40_execution_cycle.md section 1; D14). -/
def Obligations.StoreGoesToTheOldAddress : Prop :=
  ∀ (i : Instr) (s t : State), s.mem.WellFormed → s.status = .running → i.shape.dests.a = true → i.shape.dests.m = true →
    exec i s = .next t → t.status = .running →
      t.mem.read s.a.toNat = t.a ∧ ∀ k, k ≠ s.a.toNat → t.mem.read k = s.mem.read k

/-! ## Faults -/

/-- An instruction that uses the reserved selector raises IllegalInstruction with its word, before anything else, and
changes only the status (60_exceptions.md sections 2 and 3; D13, D20). -/
def Obligations.ReservedSelectorIsRaised : Prop :=
  ∀ (i : Instr) (s : State), ¬ i.WellFormed →
    exec i s = .next { s with status := .fault .illegalInstruction (encode s.params.maps i) }

/-- An instruction that uses M while register A is outside data memory raises MemoryAddress with that address, whatever
its mask, comparison or divisor, and changes only the status (60_exceptions.md sections 2 and 3; D12, D31). -/
def Obligations.AddressOutsideDataMemoryIsRaised : Prop :=
  ∀ (i : Instr) (s : State), i.WellFormed → UsesM i → s.params.memSize ≤ s.a.toNat → s.params.jmpTargetPolicy = .regA →
    exec i s = .next { s with status := .fault .memoryAddress s.a }

/-- DIV and REM by zero raise DivideByZero with their word, whatever the mask, and change only the status (60_exceptions.md
section 2; D10, D20). -/
def Obligations.ZeroDivisorIsRaised : Prop :=
  ∀ (s : State) (sa sb : Sel) (ds : Dests), Readable s [sa, sb] ds → operandValue s sb = 0 →
    exec (.div sa sb ds) s =
      .next { s with status := .fault .divideByZero (encode s.params.maps (.div sa sb ds)) } ∧
    exec (.rem sa sb ds) s =
      .next { s with status := .fault .divideByZero (encode s.params.maps (.rem sa sb ds)) }

/-- A word that is no instruction raises IllegalInstruction with the word, and changes only the status (60_exceptions.md
section 2; D13, D20). -/
def Obligations.IllegalWordIsRaised : Prop :=
  ∀ (s : State) (w : Word) (e : DecodeError), s.halted = false → s.prog[s.pc.toNat]? = some w →
    decode s.params.maps w = .error e → step s = .next { s with status := .fault .illegalInstruction w }

/-! ## Frames and whole-machine statements -/

/-- The frame of every instruction: a register that is not a destination keeps its value, every byte of memory keeps its
own but the cell at the old A when M is a destination, the program and the parameters never change, and the status
changes only by a raise, which changes nothing else (10_state.md section 1; D14, D20). -/
def Obligations.InstructionsChangeOnlyTheirDestinations : Prop :=
  ∀ (i : Instr) (s t : State), exec i s = .next t →
    (∀ r, destReg i.shape.dests r = false → t.reg r = s.reg r) ∧
    (∀ k, (i.shape.dests.m = true → k ≠ s.a.toNat) → t.mem.read k = s.mem.read k) ∧
    t.prog = s.prog ∧ t.params = s.params ∧ (t.status = s.status ∨ t = { s with status := t.status })

/-- No step changes program memory or the parameters (10_state.md section 6, 20_memory.md section 5; D17). -/
def Obligations.StepKeepsProgramAndParameters : Prop :=
  ∀ s t : State, step s = .next t → t.prog = s.prog ∧ t.params = s.params

/-- A step of a machine that is not halted either completes one instruction, counts it and leaves the machine running, or
raises one fault and changes only the status (40_execution_cycle.md section 1; D18, D20). -/
def Obligations.StepCompletesOrRaises : Prop :=
  ∀ s t : State, s.halted = false → step s = .next t →
    t.steps = s.steps + 1 ∧ t.status = .running ∨
      t.status ≠ .running ∧ t = { s with status := t.status }

/-- R89: an instruction that completes advances pc by one word, whatever it writes, but for a taken JMP, which loads it
from register A. -/
def Obligations.PcAdvancesUnlessAJmpIsTaken : Prop :=
  ∀ (i : Instr) (s t : State), s.status = .running → exec i s = .next t → t.status = .running →
    ((∀ (c : Cmp) (sa sb : Sel), i ≠ c.instr sa sb) → t.pc = s.pc + 1) ∧
    ∀ (c : Cmp) (sa sb : Sel), i = c.instr sa sb →
      t.pc = if taken s.params.cmpSigned c (operandValue s sa) (operandValue s sb) then s.a else s.pc + 1

/-- Register B, C or D has no part in an instruction that does not name it as an operand: with another value in it the
instruction completes alike, and the value stays unless the register is a destination (10_state.md section 1). -/
def Obligations.UnnamedRegistersPlayNoPart : Prop :=
  ∀ (i : Instr) (s t : State) (r : Reg) (v : Word), r ≠ .a → regSel r ∉ i.shape.sels → s.status = .running →
    exec i s = .next t → t.status = .running →
      exec i (s.setReg v r) = .next (if destReg i.shape.dests r then t else t.setReg v r)

/-- A halted machine (a fault, pc at or past the end of the program, or the step cap) is not changed by a step, and
the step returns false (40_execution_cycle.md section 1; D18 for the cap, D19 for the value returned). -/
def Obligations.HaltedMachineStaysAsItIs : Prop :=
  ∀ s : State, (s.status ≠ .running ∨ s.prog.length ≤ s.pc.toNat ∨ s.params.stepLimit ≤ s.steps) →
    step s = .next s ∧ stepReturns s = false

/-- Where the machine is not halted and the word at pc decodes, a step is that instruction's execution, and it adds nothing
around it (40_execution_cycle.md section 2). -/
def Obligations.StepRunsTheDecodedInstruction : Prop :=
  ∀ (s : State) (w : Word) (i : Instr), s.status = .running → s.steps < s.params.stepLimit →
    s.prog[s.pc.toNat]? = some w → decode s.params.maps w = .ok i → step s = exec i s

/-- A step never stops the model with a fault, and refuses an instruction only under JMP_TARGET_POLICY =
refuse_if_differs (40_execution_cycle.md section 1: a fetch cannot fault; the policy is D5). -/
def Obligations.StepAnswersANextState : Prop :=
  (∀ s r, step s ≠ .fault r) ∧ ∀ s r, step s = .refused r → s.params.jmpTargetPolicy = .refuseIfDiffers

/-! ## The invariant -/

/-- Every step keeps the invariant: legal parameters, a program that fits, canonical data memory within MEM_SIZE, a step
count within the cap, and a fault status that records the faulting word or address (10_state.md sections 2, 4 and 6,
60_exceptions.md sections 1 and 2; D12, D16, D18, D20). -/
def Obligations.EveryStepKeepsTheInvariant : Prop :=
  ∀ s t : State, Invariant s → step s = .next t → Invariant t

/-- The invariant holds at reset (10_state.md section 8; the empty program is log entry 2). -/
def Obligations.ResetMeetsTheInvariant : Prop := Invariant State.reset

/-- The invariant holds after every accepted load (70_reset_and_hazards.md section 1; D21, D23). -/
def Obligations.LoadMeetsTheInvariant : Prop :=
  ∀ (s t : State) (program : List String), ParamsWellFormed s.params → load s program = .ok t → Invariant t

/-- Where the machine is not halted the increment of pc does not wrap (10_state.md section 2; D16). -/
def Obligations.PcIncrementDoesNotWrap : Prop :=
  ∀ s : State, Invariant s → s.halted = false → (s.pc + 1).toNat = s.pc.toNat + 1

/-! ## Data memory -/

/-- R38: the regions of data memory, cell by cell; every cell is read and written the same way, whatever its region. -/
def Obligations.MemoryMapIsThePartitionOfTheTable : Prop :=
  (∀ addr : Nat, regionOf addr =
    if addr ≤ 15 then some .registersAndAliases else if addr ≤ 255 then some .staticVariables
    else if addr ≤ 2047 then some .stack else if addr ≤ 16383 then some .heap else if addr ≤ 20479 then some .screen
    else if addr ≤ 20480 then some .keyboard else if addr ≤ 20485 then some .displaySegments
    else if addr ≤ 20486 then some .inputCell else if addr ≤ 20487 then some .outputCell
    else if addr ≤ 24575 then some .unused else none) ∧
  (memoryMap.map RegionRow.count).sum = 24576 ∧
  ∀ s : State, s.mem.WellFormed → s.a.toNat < s.params.memSize →
    (∃ t, exec (.copy .m { Dests.empty with d := true }) s = .next t ∧ t.d = s.mem.read s.a.toNat) ∧
    ∃ t, exec (.copy .d { Dests.empty with m := true }) s = .next t ∧
      ∀ k, t.mem.read k = if k = s.a.toNat then s.d else s.mem.read k

/-- A value stored through M is what the next instruction reads through M (20_memory.md section 5,
70_reset_and_hazards.md section 4). -/
def Obligations.StoredValueIsReadBack : Prop :=
  ∀ (s : State) (sa : Sel), s.mem.WellFormed → .reserved ≠ sa → s.a.toNat < s.params.memSize →
    ∃ t u, exec (.copy sa { Dests.empty with m := true }) s = .next t ∧
      exec (.copy .m { Dests.empty with d := true }) t = .next u ∧ u.d = operandValue s sa

/-! ## load and run -/

/-- R230: load of a program in any state leaves A = B = C = D = 0, pc = 0, every cell 0 but for INIT_MEM, steps = 0, status
Running, and the words given. -/
def Obligations.LoadResetsEverything : Prop :=
  ∀ (s : State) (words : List Word), words.length ≤ s.params.progMax →
    ∃ t, load s (words.map textOfWord) = .ok t ∧ t.a = 0 ∧ t.b = 0 ∧ t.c = 0 ∧ t.d = 0 ∧ t.pc = 0 ∧ t.steps = 0 ∧
      t.status = .running ∧ t.prog = words ∧ t.params = s.params ∧
      (∀ k, (∀ cell ∈ s.params.initMem, cell.1 ≠ k) → t.mem.read k = 0) ∧
      ((s.params.initMem.map Prod.fst).Nodup → ∀ cell ∈ s.params.initMem, t.mem.read cell.1 = cell.2)

/-- R231: nothing survives load: what it answers depends on the program and the parameters alone. -/
def Obligations.NothingSurvivesLoad : Prop :=
  ∀ (s s' : State) (program : List String), s.params = s'.params → load s program = load s' program

/-- load refuses exactly the programs with an element that is not 16 characters 0 or 1, or with more than PROG_MAX elements;
with no such defect it is accepted (70_reset_and_hazards.md section 1; D21). -/
def Obligations.LoadRefusesExactlyBadPrograms : Prop :=
  ∀ (s : State) (program : List String), (∃ e, load s program = .error e) ↔
    (∃ t ∈ program, ¬ (t.toList.length = 16 ∧ ∀ ch ∈ t.toList, ch = '0' ∨ ch = '1')) ∨ s.params.progMax < program.length

/-- The model's reset state is what load of the empty program leaves (10_state.md section 8; log entry 2: the model's
choice of the empty program, which D21 accepts). -/
def Obligations.ResetIsLoadOfTheEmptyProgram : Prop :=
  ∀ s : State, s.params = defaultParams → load s [] = .ok State.reset ∧ State.reset.halted = true ∧
    outcome State.reset = .completed

/-- run calls step until one returns false: it always ends, in the first halted state that one or more steps reach,
with no more instructions executed than STEP_LIMIT (40_execution_cycle.md section 1). The premise is the default of
JMP_TARGET_POLICY (D5), under which no instruction is refused; the other policy is left out. -/
def Obligations.RunEndsInTheFirstHaltedState : Prop :=
  ∀ s : State, s.params.jmpTargetPolicy = .regA →
    ∃ k t, 1 ≤ k ∧ Host.Core.run core k s = .next t ∧ t.halted = true ∧ run s = .next t ∧
      (∀ j, 1 ≤ j → j < k → ∃ u, Host.Core.run core j s = .next u ∧ u.halted = false) ∧
      t.steps - s.steps ≤ s.params.stepLimit

/-- A run from within the cap stays within it, and a run that did not terminate executed exactly STEP_LIMIT instructions
and stands before a word it has not executed (60_exceptions.md sections 1 and 3; D18). -/
def Obligations.CapHaltIsExact : Prop :=
  ∀ s t : State, s.steps ≤ s.params.stepLimit → run s = .next t →
    t.steps ≤ s.params.stepLimit ∧
      (outcome t = .didNotTerminate → t.steps = s.params.stepLimit ∧ t.pc.toNat < s.prog.length ∧ t.status = .running)

/-! ## The assembler and the disassembler -/

/-- The assembler emits only well-formed instructions (45_assembler.md sections 2 to 4). -/
def Obligations.AssembledInstructionsAreWellFormed : Prop :=
  ∀ (predefined : List (Name × Nat)) (lines : List String) (is : List Instr),
    assembleInstrs predefined lines = .ok is → ∀ i ∈ is, i.WellFormed

/-- A program becomes as many words as its statements do (45_assembler.md sections 1 and 4; D27 for the expansions). -/
def Obligations.AssembledLengthIsTheWordCount : Prop :=
  ∀ (predefined : List (Name × Nat)) (lines : List String) (statements : List Numbered) (is : List Instr),
    parseLines 0 lines = .ok statements → assembleInstrs predefined lines = .ok is → is.length = wordsBefore statements

/-- GOTO becomes a load of the label's index and an unconditional JMP; the index counts every word of every expansion
before the definition, whether the definition comes earlier or later (45_assembler.md sections 3 and 4; D27). -/
def Obligations.GotoLoadsTheIndexOfItsLabel : Prop :=
  ∀ (predefined : List (Name × Nat)) (lines : List String) (is : List Instr) (x : Name) (line line' : Nat)
    (before after before' after' : List Numbered),
    parseLines 0 lines = .ok (before ++ (line, .labelDef x) :: after) →
    parseLines 0 lines = .ok (before' ++ (line', .goto x) :: after') →
    assembleInstrs predefined lines = .ok is →
      is[wordsBefore before']? = some (.ldi (BitVec.ofNat 15 (wordsBefore before))) ∧
        is[wordsBefore before' + 1]? = some (.jmpAl .a .a)

/-- Defining a label twice fails the assembly with a duplicate-label error (45_assembler.md sections 3 and 5). -/
def Obligations.DuplicateLabelFailsAssembly : Prop :=
  ∀ (predefined : List (Name × Nat)) (lines : List String) (x : Name) (line line' : Nat)
    (before between after : List Numbered),
    parseLines 0 lines = .ok (before ++ (line, .labelDef x) :: between ++ (line', .labelDef x) :: after) →
      ∃ k y, assembleInstrs predefined lines = .error ⟨k, .duplicateLabel y⟩

/-- A GOTO to a label that no line defines fails the assembly (45_assembler.md sections 4 and 5). -/
def Obligations.UndefinedLabelFailsAssembly : Prop :=
  ∀ (predefined : List (Name × Nat)) (lines : List String) (statements : List Numbered) (line : Nat) (x : Name),
    parseLines 0 lines = .ok statements → (line, .goto x) ∈ statements → (∀ k, (k, .labelDef x) ∉ statements) →
      ∃ e, assembleInstrs predefined lines = .error e

/-- Defining a label at an instruction index above 32767 fails the assembly, whether or not the label is used
(45_assembler.md section 5; D30). -/
def Obligations.LabelIndexOutOfRangeFailsAssembly : Prop :=
  ∀ (predefined : List (Name × Nat)) (lines : List String) (x : Name) (line : Nat) (before after : List Numbered),
    parseLines 0 lines = .ok (before ++ (line, .labelDef x) :: after) → 32767 < wordsBefore before →
      ∃ e, assembleInstrs predefined lines = .error e

/-- What the assembler emits, load accepts, and program memory then holds the words of the texts in order
(45_assembler.md section 5, 70_reset_and_hazards.md section 1; D21). -/
def Obligations.AssembledTextsLoad : Prop :=
  ∀ (s : State) (predefined : List (Name × Nat)) (lines texts : List String),
    assemble s.params.maps predefined lines = .ok texts → texts.length ≤ s.params.progMax →
      ∃ t, load s texts = .ok t ∧ t.prog.map textOfWord = texts

/-- The symbolic line of a well-formed instruction, but for a JMP or an empty mask, assembles to that instruction
(45_assembler.md section 6; D26 and D29 for the spellings). -/
def Obligations.DisassembledLineAssemblesBack : Prop :=
  ∀ (predefined : List (Name × Nat)) (i : Instr), i.WellFormed → (∀ (c : Cmp) (sa sb : Sel), i ≠ c.instr sa sb) →
    i.shape.dests ≠ .empty → assembleInstrs predefined [instrText i] = .ok [i]
end

