-- ==== Sys2Proof/Laws/Syntax.lean ====
section
/-! SUPPORT. An instruction is determined by its shape, and the shapes and the well-formedness of the three classes. -/

namespace Sys2Proof

/-- Two instructions of one shape are the same. -/
theorem Instr.shape_injective {i j : Instr} (h : i.shape = j.shape) : i = j := by
  cases i <;> cases j <;> cases h <;> rfl

@[simp] theorem UnOp.instr_shape (u : UnOp) (sa : Sel) (ds : Dests) : (u.instr sa ds).shape = .un u sa ds := by
  cases u <;> rfl

@[simp] theorem BinOp.instr_shape (f : BinOp) (sa sb : Sel) (ds : Dests) : (f.instr sa sb ds).shape = .bin f sa sb ds := by
  cases f <;> rfl

@[simp] theorem Cmp.instr_shape (c : Cmp) (sa sb : Sel) : (c.instr sa sb).shape = .jmp c sa sb := by
  cases c <;> rfl

/-- The JMP instruction of a shape. -/
theorem shape_eq_jmp {i : Instr} {c : Cmp} {sa sb : Sel} (h : i.shape = .jmp c sa sb) : c.instr sa sb = i :=
  Instr.shape_injective ((Cmp.instr_shape c sa sb).trans h.symm)

theorem Instr.wellFormed_ldi (v : BitVec 15) : (Instr.ldi v).WellFormed := by
  simp [Instr.WellFormed, Instr.shape, Shape.sels]

theorem UnOp.instr_wellFormed (u : UnOp) {sa : Sel} (ds : Dests) (ha : sa ≠ .reserved) : (u.instr sa ds).WellFormed := by
  simp [Instr.WellFormed, Shape.sels, ha.symm]

theorem BinOp.instr_wellFormed (f : BinOp) {sa sb : Sel} (ds : Dests) (ha : sa ≠ .reserved) (hb : sb ≠ .reserved) :
    (f.instr sa sb ds).WellFormed := by
  simp [Instr.WellFormed, Shape.sels, ha.symm, hb.symm]

theorem Cmp.instr_wellFormed (c : Cmp) {sa sb : Sel} (ha : sa ≠ .reserved) (hb : sb ≠ .reserved) :
    (c.instr sa sb).WellFormed := by
  simp [Instr.WellFormed, Shape.sels, ha.symm, hb.symm]

end Sys2Proof
end

