-- ==== Sys2Proof/Laws/Assembler.lean ====
section
/-! SUPPORT. The assembler: no phase makes a reserved selector, each statement adds as many forms as it has words and the
labels it defines, and every form resolves to one instruction. -/

namespace Sys2Proof.Machine

/-! ## Peeling a phase off -/

theorem map_eq_ok {ε α β : Type} {f : α → β} {x : Except ε α} {y : β} (h : x.map f = .ok y) : ∃ v, x = .ok v ∧ f v = y := by
  cases x with
  | error e => cases h
  | ok v => exact ⟨v, rfl, by injection h⟩

theorem bind_eq_ok {ε α β : Type} {f : α → Except ε β} {x : Except ε α} {y : β} (h : (x >>= f) = .ok y) :
    ∃ v, x = .ok v ∧ f v = .ok y := by
  cases x with
  | error e => cases h
  | ok v => exact ⟨v, rfl, h⟩

/-! ## Parsed statements name no reserved selector -/

/-- The operand has an encoding. -/
def AsmOperand.Encodable : AsmOperand → Prop
  | .sel s => s ≠ .reserved
  | .lit _ => True

/-- Every operand of a right side has an encoding. -/
def Expr.Encodable : Expr → Prop
  | .un _ x => x.Encodable
  | .bin _ x y => x.Encodable ∧ y.Encodable

/-- Every operand of a statement has an encoding. -/
def Statement.Encodable : Statement → Prop
  | .set _ e => e.Encodable
  | .branch r _ x _ => r ≠ .reserved ∧ x ≠ .reserved
  | .imm _ | .goto _ | .jump | .labelDef _ => True

theorem nameSel_ne_reserved {x : Name} {s : Sel} (h : nameSel x = some s) : s ≠ .reserved := by
  unfold nameSel at h
  split at h
  · unfold letterSel at h
    split at h <;> cases h <;> simp
  · cases h

theorem parseOperand_encodable {t : Token} {x : AsmOperand} (h : parseOperand t = .ok x) : x.Encodable := by
  unfold parseOperand at h
  split at h
  · cases h; simp [AsmOperand.Encodable]
  · cases h; simp [AsmOperand.Encodable]
  · obtain ⟨l, -, rfl⟩ := map_eq_ok h; trivial
  · split at h
    · cases h; exact nameSel_ne_reserved (by assumption)
    · cases h; trivial
  · cases h

theorem parseExpr_encodable {ts : List Token} {e : Expr} (h : parseExpr ts = .ok e) : e.Encodable := by
  unfold parseExpr at h
  split at h
  · obtain ⟨_, h1, h2⟩ := bind_eq_ok h; cases h2; exact parseOperand_encodable h1
  · obtain ⟨_, h1, h2⟩ := bind_eq_ok h; cases h2; exact parseOperand_encodable h1
  · obtain ⟨_, h1, h2⟩ := bind_eq_ok h; cases h2; exact parseOperand_encodable h1
  · obtain ⟨_, h1, h2⟩ := bind_eq_ok h
    split at h2
    · cases h2
    · obtain ⟨_, h3, h4⟩ := bind_eq_ok h2
      split at h4 <;> cases h4
      exact ⟨parseOperand_encodable h1, parseOperand_encodable h3⟩
  · cases h

theorem parseBranch_encodable {r : Name} {c : Cmp} {ts : List Token} {st : Statement} (h : parseBranch r c ts = .ok st) :
    st.Encodable := by
  unfold parseBranch at h
  split at h
  · split at h
    · cases h
    · obtain ⟨_, h1, h2⟩ := bind_eq_ok h
      cases h2
      refine ⟨nameSel_ne_reserved (by assumption), ?_⟩
      unfold parseBranchOperand at h1
      split at h1
      · cases h1; simp
      · cases h1; simp
      · cases h1
      · split at h1 <;> cases h1; exact nameSel_ne_reserved (by assumption)
      · cases h1
  · cases h

theorem parseStatement_encodable {ts : List Token} {st : Statement} (h : parseStatement ts = .ok (some st)) :
    st.Encodable := by
  unfold parseStatement at h
  split at h
  all_goals first
    | (cases h; done)
    | (obtain ⟨_, h1, h2⟩ := bind_eq_ok h; cases h2; first | trivial | exact parseBranch_encodable h1)
    | (obtain ⟨_, _, h2⟩ := bind_eq_ok h; obtain ⟨_, h3, h4⟩ := bind_eq_ok h2; cases h4; exact parseExpr_encodable h3)
    | (split at h <;> cases h <;> trivial)
    | (cases h; trivial)

/-- Every statement of a parsed program has an encoding. -/
theorem parseLines_encodable {k : Nat} {lines : List String} {sts : List Numbered} (h : parseLines k lines = .ok sts) :
    ∀ st ∈ sts, st.2.Encodable := by
  induction lines generalizing k sts with
  | nil => cases h; simp
  | cons line rest ih =>
    simp only [parseLines] at h
    split at h
    · cases h
    · exact ih h
    · rename_i st hp
      obtain ⟨sts', h1, rfl⟩ := map_eq_ok h
      have hst : st.Encodable := by
        unfold parseLine at hp
        split at hp
        · cases hp
        · exact parseStatement_encodable hp
      intro x hx
      rcases List.mem_cons.1 hx with rfl | hx
      exacts [hst, ih h1 _ hx]

/-! ## The first pass -/

/-- Where the first pass succeeds, no label is defined that was seen or is defined before. -/
theorem collectLabels_unique {sts : List Numbered} {seen names : List Name} (h : collectLabels sts seen = .ok names)
    {before after : List Numbered} {k : Nat} {x : Name} (hs : sts = before ++ (k, .labelDef x) :: after) :
    x ∉ seen ∧ ∀ k', (k', Statement.labelDef x) ∉ before := by
  induction sts generalizing seen before with
  | nil => simp at hs
  | cons st sts ih =>
    cases before with
    | nil =>
      rw [List.nil_append, List.cons.injEq] at hs
      obtain ⟨rfl, rfl⟩ := hs
      simp only [collectLabels] at h
      split at h
      · cases h
      · exact ⟨by assumption, by simp⟩
    | cons b bs =>
      rw [List.cons_append, List.cons.injEq] at hs
      obtain ⟨rfl, rfl⟩ := hs
      obtain ⟨n, stm⟩ := st
      cases stm with
      | labelDef y =>
        simp only [collectLabels] at h
        split at h
        · cases h
        · obtain ⟨h1, h2⟩ := ih h rfl
          simp only [List.mem_cons, not_or] at h1
          simp [h1, h2]
      | imm _ | set _ _ | branch _ _ _ _ | goto _ | jump =>
        obtain ⟨h1, h2⟩ := ih (seen := seen) h rfl
        simp [h1, h2]

/-- The only error of the first pass is a duplicate label. -/
theorem collectLabels_error {sts : List Numbered} {seen : List Name} {e : AsmError} (h : collectLabels sts seen = .error e) :
    ∃ k y, e = ⟨k, .duplicateLabel y⟩ := by
  induction sts generalizing seen with
  | nil => cases h
  | cons st sts ih =>
    obtain ⟨n, stm⟩ := st
    cases stm with
    | labelDef y =>
      simp only [collectLabels] at h
      split at h
      · cases h; exact ⟨_, _, rfl⟩
      · exact ih h
    | imm _ | set _ _ | branch _ _ _ _ | goto _ | jump => exact ih (seen := seen) h

/-! ## The second pass -/

/-- A form that resolves to a well-formed instruction, if it resolves. -/
def PreForm.Encodable : PreForm → Prop
  | .ready i => i.WellFormed
  | .pending _ _ => True

/-- The labels that a statement at instruction index `n` defines. -/
def labelsAt (n : Nat) : Statement → List (Name × Nat)
  | .labelDef x => [(x, n)]
  | .imm _ | .set _ _ | .branch _ _ _ _ | .goto _ | .jump => []

/-- The labels that a list of statements from instruction index `n` defines. -/
def labelsFrom : Nat → List Numbered → List (Name × Nat)
  | _, [] => []
  | n, st :: rest => labelsAt n st.2 ++ labelsFrom (n + st.2.wordCount) rest

theorem emitLdi_spec {t t' : Tables} {k n : Nat} (h : t.emitLdi k n = .ok t') : ∃ p, t' = t.emit p ∧ p.Encodable := by
  unfold Tables.emitLdi at h
  split at h <;> cases h
  exact ⟨_, rfl, Instr.wellFormed_ldi _⟩

/-- A literal adds one form and no label. -/
theorem emitLiteral_spec {names : List Name} {t t' : Tables} {k : Nat} {v : Literal}
    (h : t.emitLiteral names k v = .ok t') : ∃ p, t'.forms = t.forms ++ [p] ∧ p.Encodable ∧ t'.labels = t.labels := by
  unfold Tables.emitLiteral at h
  split at h
  · obtain ⟨p, rfl, hp⟩ := emitLdi_spec h; exact ⟨p, rfl, hp, rfl⟩
  · split at h
    · cases h; exact ⟨_, rfl, trivial, rfl⟩
    · split at h <;> obtain ⟨p, rfl, hp⟩ := emitLdi_spec h <;> exact ⟨p, rfl, hp, rfl⟩

/-- A literal and one more form. -/
theorem emitLiteral_emit_spec {names : List Name} {t t' : Tables} {k : Nat} {v : Literal} {i : Instr} (hi : i.WellFormed)
    (h : (do return (← t.emitLiteral names k v).emit (.ready i)) = .ok t') :
    ∃ new, t'.forms = t.forms ++ new ∧ (∀ p ∈ new, p.Encodable) ∧ t'.labels = t.labels ∧ new.length = 2 := by
  obtain ⟨t1, h1, h2⟩ := bind_eq_ok h
  cases h2
  obtain ⟨p, hf, hp, hl⟩ := emitLiteral_spec h1
  refine ⟨[p, .ready i], by simp [Tables.emit, hf], ?_, hl, rfl⟩
  intro q hq
  simp only [List.mem_cons, List.not_mem_nil, or_false] at hq
  rcases hq with rfl | rfl
  exacts [hp, hi]

/-- An operation statement adds the forms of R166 and no label. -/
theorem emitSet_spec {names : List Name} {t t' : Tables} {k : Nat} {ds : Dests} {e : Expr} (he : e.Encodable)
    (h : t.emitSet names k ds e = .ok t') :
    ∃ new, t'.forms = t.forms ++ new ∧ (∀ p ∈ new, p.Encodable) ∧ t'.labels = t.labels ∧
      new.length = (Statement.set ds e).wordCount := by
  have ha : Sel.a ≠ .reserved := by decide
  unfold Tables.emitSet at h
  split at h
  · cases h; exact ⟨[_], rfl, by simpa [PreForm.Encodable] using UnOp.instr_wellFormed _ ds he, rfl, rfl⟩
  · exact emitLiteral_emit_spec (UnOp.instr_wellFormed _ ds ha) h
  · cases h; exact ⟨[_], rfl, by simpa [PreForm.Encodable] using BinOp.instr_wellFormed _ ds he.1 he.2, rfl, rfl⟩
  · exact emitLiteral_emit_spec (BinOp.instr_wellFormed _ ds ha he.2) h
  · exact emitLiteral_emit_spec (BinOp.instr_wellFormed _ ds he.1 ha) h
  · cases h

/-- A label is defined only at an index that fits the 15-bit field. -/
theorem defineLabel_spec {t t' : Tables} {k : Nat} {x : Name} (h : t.defineLabel k x = .ok t') :
    t.forms.length ≤ literalMax ∧ t' = { t with labels := t.labels ++ [(x, t.forms.length)] } := by
  unfold Tables.defineLabel at h
  split at h <;> cases h
  exact ⟨by assumption, rfl⟩

/-- Everything the second pass does with one statement. -/
theorem lower_spec {names : List Name} {t t' : Tables} {st : Numbered} (hst : st.2.Encodable)
    (h : t.lower names st = .ok t') :
    ∃ new, t'.forms = t.forms ++ new ∧ (∀ p ∈ new, p.Encodable) ∧
      t'.labels = t.labels ++ labelsAt t.forms.length st.2 ∧ new.length = st.2.wordCount ∧
      ∀ k x, st = (k, .goto x) → new = [.pending k x, .ready (.jmpAl .a .a)] := by
  have hj : (Instr.jmpAl .a .a).WellFormed := by decide
  unfold Tables.lower at h
  split at h
  · obtain ⟨p, hf, hp, hl⟩ := emitLiteral_spec h
    exact ⟨[p], hf, by simpa, by simp [hl, labelsAt], rfl, by simp⟩
  · obtain ⟨new, hf, hp, hl, hn⟩ := emitSet_spec hst h
    exact ⟨new, hf, hp, by simp [hl, labelsAt], hn, by simp⟩
  · rename_i line r cmp x label
    cases h
    exact ⟨[.pending line label, .ready (cmp.instr r x)], by simp [Tables.emit],
      by simpa [PreForm.Encodable] using Cmp.instr_wellFormed _ hst.1 hst.2, by simp [Tables.emit, labelsAt], rfl, by simp⟩
  · rename_i line label
    cases h
    exact ⟨[.pending line label, .ready (.jmpAl .a .a)], by simp [Tables.emit], by simpa [PreForm.Encodable] using hj,
      by simp [Tables.emit, labelsAt], rfl, by simp +contextual⟩
  · cases h
    exact ⟨[.ready (.jmpAl .a .a)], rfl, by simpa [PreForm.Encodable] using hj, by simp [Tables.emit, labelsAt], rfl, by simp⟩
  · obtain ⟨-, rfl⟩ := defineLabel_spec h
    exact ⟨[], by simp, by simp, by simp [labelsAt], rfl, by simp⟩

/-- Everything the second pass does with a list of statements. -/
theorem lowerAll_spec {names : List Name} {sts : List Numbered} {t t' : Tables} (hs : ∀ st ∈ sts, st.2.Encodable)
    (h : t.lowerAll names sts = .ok t') :
    ∃ new, t'.forms = t.forms ++ new ∧ (∀ p ∈ new, p.Encodable) ∧
      t'.labels = t.labels ++ labelsFrom t.forms.length sts ∧ new.length = wordsBefore sts := by
  induction sts generalizing t with
  | nil => cases h; exact ⟨[], by simp, by simp, by simp [labelsFrom], rfl⟩
  | cons st sts ih =>
    simp only [Tables.lowerAll] at h
    split at h
    · cases h
    · rename_i t1 h1
      obtain ⟨new1, hf1, hp1, hl1, hn1, -⟩ := lower_spec (hs _ (by simp)) h1
      obtain ⟨new2, hf2, hp2, hl2, hn2⟩ := ih (fun s hm => hs s (by simp [hm])) h
      refine ⟨new1 ++ new2, by simp [hf2, hf1], fun p hp => ?_, by simp [hl2, hl1, labelsFrom, hf1, hn1],
        by simp [hn1, hn2, wordsBefore]⟩
      rcases List.mem_append.1 hp with hp | hp
      exacts [hp1 _ hp, hp2 _ hp]

/-- The second pass over two lists in turn. -/
theorem lowerAll_append {names : List Name} {xs ys : List Numbered} {t t' : Tables}
    (h : t.lowerAll names (xs ++ ys) = .ok t') :
    ∃ t1, t.lowerAll names xs = .ok t1 ∧ t1.lowerAll names ys = .ok t' := by
  induction xs generalizing t with
  | nil => exact ⟨t, rfl, h⟩
  | cons x xs ih =>
    simp only [List.cons_append, Tables.lowerAll] at h ⊢
    split at h
    · cases h
    · exact ih h

/-- A label's index is the number of words before the first statement that defines it. -/
theorem lookupName_labelsFrom {before after : List Numbered} {n k : Nat} {x : Name}
    (h : ∀ k', (k', Statement.labelDef x) ∉ before) :
    lookupName (labelsFrom n (before ++ (k, .labelDef x) :: after)) x = some (n + wordsBefore before) := by
  induction before generalizing n with
  | nil => simp [labelsFrom, labelsAt, lookupName, wordsBefore]
  | cons b bs ih =>
    have hrest := ih (n := n + b.2.wordCount) fun k' hk => h k' (by simp [hk])
    obtain ⟨n', stm⟩ := b
    simp only [List.cons_append, labelsFrom]
    cases stm with
    | labelDef y =>
      have hy : y ≠ x := by rintro rfl; exact h n' (by simp)
      simp only [labelsAt, List.singleton_append, lookupName, if_neg hy, hrest]
      simp [wordsBefore]
      omega
    | imm _ | set _ _ | branch _ _ _ _ | goto _ | jump =>
      simp only [labelsAt, List.nil_append, hrest]
      simp [wordsBefore]
      omega

/-- A label that no statement defines has no index. -/
theorem lookupName_labelsFrom_none {sts : List Numbered} {n : Nat} {x : Name} (h : ∀ k, (k, Statement.labelDef x) ∉ sts) :
    lookupName (labelsFrom n sts) x = none := by
  induction sts generalizing n with
  | nil => rfl
  | cons st rest ih =>
    obtain ⟨n', stm⟩ := st
    have hrest := fun m => ih (n := m) fun k hk => h k (by simp [hk])
    cases stm with
    | labelDef y =>
      have hy : y ≠ x := by rintro rfl; exact h n' (by simp)
      simp only [labelsFrom, labelsAt, List.singleton_append, lookupName, if_neg hy, hrest]
    | imm _ | set _ _ | branch _ _ _ _ | goto _ | jump => simp only [labelsFrom, labelsAt, List.nil_append, hrest]

/-! ## The third pass, and all of them -/

/-- Each form resolves to the instruction at its place. -/
theorem resolveAll_spec {labels : List (Name × Nat)} {ps : List PreForm} {is : List Instr}
    (h : resolveAll labels ps = .ok is) : List.Forall₂ (fun p i => resolve labels p = .ok i) ps is := by
  induction ps generalizing is with
  | nil => cases h; exact .nil
  | cons p ps ih =>
    simp only [resolveAll] at h
    split at h
    · cases h
    · obtain ⟨is', h1, rfl⟩ := map_eq_ok h
      exact .cons (by assumption) (ih h1)

theorem resolve_wellFormed {labels : List (Name × Nat)} {p : PreForm} {i : Instr} (hp : p.Encodable)
    (h : resolve labels p = .ok i) : i.WellFormed := by
  cases p with
  | ready j => cases h; exact hp
  | pending k x =>
    simp only [resolve] at h
    split at h
    · cases h
    · split at h <;> cases h
      exact Instr.wellFormed_ldi _

/-- A successful assembly is a success of each pass. -/
theorem assembleInstrs_spec {predefined : List (Name × Nat)} {lines : List String} {is : List Instr}
    (h : assembleInstrs predefined lines = .ok is) :
    ∃ sts names t, parseLines 0 lines = .ok sts ∧ collectLabels sts [] = .ok names ∧
      Tables.lowerAll names ⟨[], [], predefined, firstVariable⟩ sts = .ok t ∧ resolveAll t.labels t.forms = .ok is := by
  obtain ⟨sts, h1, h⟩ := bind_eq_ok h
  obtain ⟨names, h2, h⟩ := bind_eq_ok h
  obtain ⟨t, h3, h⟩ := bind_eq_ok h
  exact ⟨sts, names, t, h1, h2, h3, h⟩

end Sys2Proof.Machine
end

