-- ==== Sys2Proof/Laws/Decode.lean ====
section
/-! SUPPORT. The numeric maps are inverted by their lookups, the fields of a word are where the encoder puts them. -/

namespace Sys2Proof

/-! ## Lookups -/

/-- A lookup by number finds the element that has the number, when numbers are not shared. -/
theorem find?_code_of_nodup {α : Type} {n : Nat} (code : α → BitVec n) (all : List α) (h : (all.map code).Nodup) {x : α}
    (hx : x ∈ all) : all.find? (fun y => code y == code x) = some x := by
  induction all with
  | nil => simp at hx
  | cons y rest ih =>
    rw [List.map_cons, List.nodup_cons] at h
    rcases List.mem_cons.1 hx with rfl | hx
    · simp
    · have : code y ≠ code x := fun he => h.1 (he ▸ List.mem_map_of_mem hx)
      rw [List.find?_cons_of_neg (by simpa using this), ih h.2 hx]

theorem OpcodeMap.op?_code (mp : OpcodeMap) (h : (Op.all.map mp.code).Nodup) (o : Op) : mp.op? (mp.code o) = some o :=
  find?_code_of_nodup mp.code _ h (by rcases o with u | f | _ <;> [cases u; cases f; skip] <;> decide)

theorem OpcodeMap.code_op? {mp : OpcodeMap} {bits : BitVec 4} {o : Op} (h : mp.op? bits = some o) : mp.code o = bits := by
  simpa using List.find?_some h

theorem SelectorMap.sel_code (mp : SelectorMap) (h : (Sel.all.map mp.code).Nodup) (s : Sel) : mp.sel (mp.code s) = s := by
  rw [SelectorMap.sel, find?_code_of_nodup mp.code _ h (by cases s <;> decide), Option.getD_some]

theorem SelectorMap.code_sel {mp : SelectorMap} {bits : BitVec 3} (h : mp.sel bits ≠ .reserved) :
    mp.code (mp.sel bits) = bits := by
  unfold SelectorMap.sel at h ⊢
  cases hf : Sel.all.find? (fun s => mp.code s == bits) with
  | none => simp [hf] at h
  | some s => simpa using List.find?_some hf

theorem CmpMap.cmp?_code (mp : CmpMap) (h : (Cmp.all.map mp.code).Nodup) (c : Cmp) : mp.cmp? (mp.code c) = some c :=
  find?_code_of_nodup mp.code _ h (by cases c <;> decide)

theorem CmpMap.code_cmp? {mp : CmpMap} {bits : BitVec 3} {c : Cmp} (h : mp.cmp? bits = some c) : mp.code c = bits := by
  simpa using List.find?_some h

/-! ## Masks -/

/-- The bits of the mask of a set of destinations. -/
theorem MaskMap.getLsbD_bits (mp : MaskMap) (ds : Dests) (k : Nat) (hk : k < 5) :
    (mp.bits ds).getLsbD k =
      ((ds.a && decide (mp.a = k)) || (ds.b && decide (mp.b = k)) || (ds.c && decide (mp.c = k)) ||
        (ds.d && decide (mp.d = k)) || (ds.m && decide (mp.m = k))) := by
  have h : ∀ (w : Bool) (j : Fin 5), (maskBit w j).getLsbD k = (w && decide ((j : Nat) = k)) := by
    intro w j
    cases w <;> simp [maskBit, hk, eq_comm]
  simp [MaskMap.bits, h]

theorem MaskMap.dests_bits (mp : MaskMap) (h : [mp.a, mp.b, mp.c, mp.d, mp.m].Nodup) (ds : Dests) :
    mp.dests (mp.bits ds) = ds := by
  obtain ⟨a, b, c, d, m⟩ := ds
  simp only [List.nodup_cons, List.mem_cons, List.not_mem_nil, or_false, not_or, ← Fin.val_ne_iff] at h
  obtain ⟨⟨h1, h2, h3, h4⟩, ⟨h5, h6, h7⟩, ⟨h8, h9⟩, h10, -⟩ := h
  simp only [MaskMap.dests, MaskMap.getLsbD_bits _ _ _ (Fin.isLt _), h1, h2, h3, h4, h5, h6, h7, h8, h9, h10, h1.symm,
    h2.symm, h3.symm, h4.symm, h5.symm, h6.symm, h7.symm, h8.symm, h9.symm, h10.symm, decide_true, decide_false,
    Bool.and_true, Bool.and_false, Bool.or_false, Bool.false_or]

/-- Five different bit numbers below five are all of them. -/
theorem MaskMap.exists_bit (mp : MaskMap) (h : [mp.a, mp.b, mp.c, mp.d, mp.m].Nodup) (k : Fin 5) :
    mp.a = k ∨ mp.b = k ∨ mp.c = k ∨ mp.d = k ∨ mp.m = k := by
  have hk : k ∈ [mp.a, mp.b, mp.c, mp.d, mp.m] := by
    by_contra hn
    have : (k :: [mp.a, mp.b, mp.c, mp.d, mp.m]).Nodup := List.nodup_cons.2 ⟨hn, h⟩
    simpa using this.length_le_card
  simpa [eq_comm] using hk

theorem MaskMap.bits_dests (mp : MaskMap) (h : [mp.a, mp.b, mp.c, mp.d, mp.m].Nodup) (low : BitVec 5) :
    mp.bits (mp.dests low) = low := by
  refine BitVec.eq_of_getLsbD_eq fun k hk => ?_
  rw [MaskMap.getLsbD_bits _ _ _ hk]
  have key : ∀ j : Fin 5, (low.getLsbD j && decide ((j : Nat) = k)) = true → low.getLsbD k = true := by
    intro j hj
    simp only [Bool.and_eq_true, decide_eq_true_eq] at hj
    exact hj.2 ▸ hj.1
  rw [Bool.eq_iff_iff]
  simp only [MaskMap.dests, Bool.or_eq_true]
  constructor
  · rintro ((((h | h) | h) | h) | h) <;> exact key _ h
  · intro hl
    rcases mp.exists_bit h ⟨k, hk⟩ with e | e | e | e | e <;> simp [e, hl]

/-! ## Fields of a word -/

/-- The bits of a word of the Operation shape. -/
theorem getLsbD_operationWord (o : BitVec 4) (x y : BitVec 3) (l : BitVec 5) (k : Nat) :
    (operationWord o x y l).getLsbD k =
      if k < 5 then l.getLsbD k else if k < 8 then y.getLsbD (k - 5) else if k < 11 then x.getLsbD (k - 8)
      else if k < 15 then o.getLsbD (k - 11) else decide (k = 15) := by
  rcases Nat.lt_or_ge k 16 with h | h
  · simp only [operationWord, BitVec.getLsbD_append]
    interval_cases k <;> simp
  · rw [BitVec.getLsbD_of_ge _ _ h]
    simp only [show ¬k < 5 by omega, show ¬k < 8 by omega, show ¬k < 11 by omega, show ¬k < 15 by omega, if_false]
    simp; omega

theorem operationWord_shape (o : BitVec 4) (x y : BitVec 3) (l : BitVec 5) : (operationWord o x y l).getLsbD 15 = true := by
  simp [getLsbD_operationWord]

theorem operationWord_opcode (o : BitVec 4) (x y : BitVec 3) (l : BitVec 5) :
    (operationWord o x y l).extractLsb' 11 4 = o := by
  refine BitVec.eq_of_getLsbD_eq fun k hk => ?_
  rw [BitVec.getLsbD_extractLsb', getLsbD_operationWord]
  interval_cases k <;> simp

theorem operationWord_selA (o : BitVec 4) (x y : BitVec 3) (l : BitVec 5) :
    (operationWord o x y l).extractLsb' 8 3 = x := by
  refine BitVec.eq_of_getLsbD_eq fun k hk => ?_
  rw [BitVec.getLsbD_extractLsb', getLsbD_operationWord]
  interval_cases k <;> simp

theorem operationWord_selB (o : BitVec 4) (x y : BitVec 3) (l : BitVec 5) :
    (operationWord o x y l).extractLsb' 5 3 = y := by
  refine BitVec.eq_of_getLsbD_eq fun k hk => ?_
  rw [BitVec.getLsbD_extractLsb', getLsbD_operationWord]
  interval_cases k <;> simp

theorem operationWord_low (o : BitVec 4) (x y : BitVec 3) (l : BitVec 5) :
    (operationWord o x y l).extractLsb' 0 5 = l := by
  refine BitVec.eq_of_getLsbD_eq fun k hk => ?_
  rw [BitVec.getLsbD_extractLsb', getLsbD_operationWord]
  interval_cases k <;> simp

/-- A word of the Operation shape is made of its fields. -/
theorem operationWord_fields (w : Word) (h : w.getLsbD 15 = true) :
    operationWord (w.extractLsb' 11 4) (w.extractLsb' 8 3) (w.extractLsb' 5 3) (w.extractLsb' 0 5) = w := by
  refine BitVec.eq_of_getLsbD_eq fun k hk => ?_
  rw [getLsbD_operationWord]
  interval_cases k <;> simp_all

/-- Decoding a word of the Operation shape, by its fields. -/
theorem decode_operationWord (mp : Maps) (o : BitVec 4) (x y : BitVec 3) (l : BitVec 5) :
    decode mp (operationWord o x y l) =
      match mp.opcode.op? o with
      | none => .error .reservedOpcode
      | some op => decodeOperation mp op x y l := by
  rw [decode, operationWord_shape, operationWord_opcode, operationWord_selA, operationWord_selB, operationWord_low]
  rfl

/-- A word of the Immediate shape is its literal. -/
theorem immediate_fields (w : Word) (h : w.getLsbD 15 = false) : (0#1 ++ w.extractLsb' 0 15 : Word) = w := by
  refine BitVec.eq_of_getLsbD_eq fun k hk => ?_
  rw [BitVec.getLsbD_append]
  interval_cases k <;> simp_all

end Sys2Proof
end

