-- ==== Sys2Proof/Laws/Disassembler.lean ====
section
/-! SUPPORT. What the assembler reads from the text the disassembler prints: numbers, masks and operation statements. -/

namespace Sys2Proof.Machine

/-- A run of word characters is gathered whole. -/
theorem tokenize_append {cs rest : List Char} (run : List Char) (h : ∀ c ∈ cs, isWordChar c = true) :
    tokenize (cs ++ rest) run = tokenize rest (cs.reverse ++ run) := by
  induction cs generalizing run with
  | nil => rfl
  | cons c cs ih =>
    rw [List.cons_append, tokenize, if_pos (h c (by simp)), ih _ fun x hx => h x (by simp [hx])]
    simp

theorem stripComment_of_no_hash {cs : List Char} (h : ∀ c ∈ cs, c ≠ '#') : stripComment cs = cs := by
  unfold stripComment
  rw [List.takeWhile_eq_self_iff]
  simpa using h

/-! ## Numbers -/

theorem digitChar_spec : ∀ n, n < 10 → (Char.ofNat (48 + n)).isDigit = true ∧ (Char.ofNat (48 + n)).toNat = 48 + n := by
  decide

/-- The digits printed for a number are digits that spell it. -/
theorem decimalDigits_spec (fuel n : Nat) (acc : List Char) (hf : fuel ≠ 0) (h : n < 10 ^ fuel) :
    ∃ ds, decimalDigits fuel n acc = ds ++ acc ∧ ds ≠ [] ∧ (∀ c ∈ ds, c.isDigit = true) ∧
      ∀ m, decimalValue ds m = m * 10 ^ ds.length + n := by
  induction fuel generalizing n acc with
  | zero => simp at hf
  | succ fuel ih =>
    simp only [decimalDigits]
    split_ifs with hn
    · obtain ⟨h1, h2⟩ := digitChar_spec n hn
      refine ⟨[Char.ofNat (48 + n)], rfl, by simp, by simpa using h1, fun m => ?_⟩
      simp only [decimalValue, List.foldl_cons, List.foldl_nil, h2]
      simp
      omega
    · obtain ⟨h1, h2⟩ := digitChar_spec (n % 10) (Nat.mod_lt _ (by norm_num))
      rw [pow_succ] at h
      obtain ⟨ds, e1, e2, e3, e4⟩ := ih (n / 10) (Char.ofNat (48 + n % 10) :: acc)
        (by rintro rfl; simp at h; omega) (by omega)
      refine ⟨ds ++ [Char.ofNat (48 + n % 10)], by rw [show '0'.toNat = 48 from rfl, e1]; simp, by simp, ?_, fun m => ?_⟩
      · intro c hc
        rcases List.mem_append.1 hc with hc | hc
        · exact e3 _ hc
        · simp only [List.mem_singleton] at hc
          exact hc ▸ h1
      · have hm := e4 m
        have hd := Nat.div_add_mod n 10
        simp only [decimalValue, List.foldl_append, List.foldl_cons, List.foldl_nil, h2] at hm ⊢
        rw [hm]
        simp only [List.length_append, List.length_singleton, pow_succ]
        ring_nf
        simp
        omega

/-- A run of digits is read as the number it spells. -/
theorem tokenize_digits {ds : List Char} {n : Nat} (h : ∀ c ∈ ds, c.isDigit = true) (hne : ds ≠ [])
    (hv : decimalValue ds 0 = n) : tokenize ds [] = some [.num n] := by
  have hw : ∀ c ∈ ds, isWordChar c = true := fun c hc => by simp [isWordChar, h c hc]
  have ht := tokenize_append (rest := []) [] hw
  rw [List.append_nil] at ht
  rw [ht, tokenize, List.append_nil, tokensAfter.eq_def]
  cases hr : ds.reverse with
  | nil => exact absurd (by simpa using hr) hne
  | cons c cs =>
    simp only
    rw [← hr, List.reverse_reverse]
    cases hd : ds with
    | nil => exact absurd hd hne
    | cons x xs =>
      rw [wordToken, if_pos (by rw [← hd]; simpa using h), ← hd, hv]
      rfl

/-! ## Masks and operation statements -/

theorem destsText_letter {ds : Dests} {c : Char} (h : c ∈ destsText ds) :
    c = 'A' ∨ c = 'B' ∨ c = 'C' ∨ c = 'D' ∨ c = 'M' := by
  simp only [destsText, List.mem_append] at h
  split_ifs at h <;> simp at h <;> tauto

/-- The letters of a mask are read as the mask. -/
theorem parseDests_destsText (ds : Dests) : parseDests (destsText ds) .empty = .ok ds := by
  obtain ⟨a, b, c, d, m⟩ := ds
  revert a b c d m
  decide

/-- The letters of a mask and the sign after them are two tokens. -/
theorem tokenize_destsText {ds : Dests} (h : ds ≠ .empty) {rest : List Char} {ts : List Token}
    (ht : tokenize rest [] = some ts) :
    tokenize (destsText ds ++ '=' :: rest) [] = some (.name (destsText ds) :: .sym '=' :: ts) := by
  have hw : ∀ c ∈ destsText ds, isWordChar c = true := by
    intro c hc
    rcases destsText_letter hc with rfl | rfl | rfl | rfl | rfl <;> decide
  have hn : ∀ r, tokensAfter (destsText ds).reverse r = some (.name (destsText ds) :: r) := by
    intro r
    obtain ⟨a, b, c, d, m⟩ := ds
    cases a <;> cases b <;> cases c <;> cases d <;> cases m <;> first | rfl | exact absurd rfl h
  rw [tokenize_append _ hw, tokenize, if_neg (by decide), ht]
  simp only [List.append_nil, hn]
  simp

/-- A mask, the sign and the text of a right side are read as an operation statement. -/
theorem parseLine_set {ds : Dests} (h : ds ≠ .empty) {rest : List Char} {ts : List Token} {e : Expr}
    (hc : ∀ c ∈ rest, c ≠ '#') (ht : tokenize rest [] = some ts) (he : parseExpr ts = .ok e)
    (hn : ∀ ts', ts ≠ .sym '=' :: ts') :
    parseLine (String.ofList (destsText ds ++ '=' :: rest)) = .ok (some (.set ds e)) := by
  have hs : stripComment (destsText ds ++ '=' :: rest) = destsText ds ++ '=' :: rest := by
    refine stripComment_of_no_hash fun c hm => ?_
    rcases List.mem_append.1 hm with hm | hm
    · rcases destsText_letter hm with rfl | rfl | rfl | rfl | rfl <;> decide
    · rcases List.mem_cons.1 hm with rfl | hm
      exacts [by decide, hc _ hm]
  unfold parseLine
  rw [String.toList_ofList, hs, tokenize_destsText h ht]
  simp only
  rw [parseStatement.eq_def]
  split <;> simp_all
  rename_i hh
  rw [← hh.1, parseDests_destsText]
  simp [bind, Except.bind]

end Sys2Proof.Machine
end

