-- ==== Sys2Proof/Laws/State.lean ====
section
/-! SUPPORT. What each update of the state does to each field. -/

namespace Sys2Proof.Machine

@[simp] theorem State.raise_a (s : State) (r : Raised) : (s.raise r).a = s.a := rfl

@[simp] theorem State.raise_b (s : State) (r : Raised) : (s.raise r).b = s.b := rfl

@[simp] theorem State.raise_c (s : State) (r : Raised) : (s.raise r).c = s.c := rfl

@[simp] theorem State.raise_d (s : State) (r : Raised) : (s.raise r).d = s.d := rfl

@[simp] theorem State.raise_pc (s : State) (r : Raised) : (s.raise r).pc = s.pc := rfl

@[simp] theorem State.raise_mem (s : State) (r : Raised) : (s.raise r).mem = s.mem := rfl

@[simp] theorem State.raise_steps (s : State) (r : Raised) : (s.raise r).steps = s.steps := rfl

@[simp] theorem State.raise_status (s : State) (r : Raised) : (s.raise r).status = .fault r.cause r.info := rfl

@[simp] theorem State.raise_prog (s : State) (r : Raised) : (s.raise r).prog = s.prog := rfl

@[simp] theorem State.raise_params (s : State) (r : Raised) : (s.raise r).params = s.params := rfl

@[simp] theorem State.advance_a (s : State) : (s.advance).a = s.a := rfl

@[simp] theorem State.advance_b (s : State) : (s.advance).b = s.b := rfl

@[simp] theorem State.advance_c (s : State) : (s.advance).c = s.c := rfl

@[simp] theorem State.advance_d (s : State) : (s.advance).d = s.d := rfl

@[simp] theorem State.advance_pc (s : State) : (s.advance).pc = s.pc + 1 := rfl

@[simp] theorem State.advance_mem (s : State) : (s.advance).mem = s.mem := rfl

@[simp] theorem State.advance_steps (s : State) : (s.advance).steps = s.steps + 1 := rfl

@[simp] theorem State.advance_status (s : State) : (s.advance).status = s.status := rfl

@[simp] theorem State.advance_prog (s : State) : (s.advance).prog = s.prog := rfl

@[simp] theorem State.advance_params (s : State) : (s.advance).params = s.params := rfl

@[simp] theorem State.jumpToA_a (s : State) : (s.jumpToA).a = s.a := rfl

@[simp] theorem State.jumpToA_b (s : State) : (s.jumpToA).b = s.b := rfl

@[simp] theorem State.jumpToA_c (s : State) : (s.jumpToA).c = s.c := rfl

@[simp] theorem State.jumpToA_d (s : State) : (s.jumpToA).d = s.d := rfl

@[simp] theorem State.jumpToA_pc (s : State) : (s.jumpToA).pc = s.a := rfl

@[simp] theorem State.jumpToA_mem (s : State) : (s.jumpToA).mem = s.mem := rfl

@[simp] theorem State.jumpToA_steps (s : State) : (s.jumpToA).steps = s.steps + 1 := rfl

@[simp] theorem State.jumpToA_status (s : State) : (s.jumpToA).status = s.status := rfl

@[simp] theorem State.jumpToA_prog (s : State) : (s.jumpToA).prog = s.prog := rfl

@[simp] theorem State.jumpToA_params (s : State) : (s.jumpToA).params = s.params := rfl

@[simp] theorem State.writeBack_a (s : State) (ds : Dests) (r : Word) : (s.writeBack ds r).a = if ds.a then r else s.a := rfl

@[simp] theorem State.writeBack_b (s : State) (ds : Dests) (r : Word) : (s.writeBack ds r).b = if ds.b then r else s.b := rfl

@[simp] theorem State.writeBack_c (s : State) (ds : Dests) (r : Word) : (s.writeBack ds r).c = if ds.c then r else s.c := rfl

@[simp] theorem State.writeBack_d (s : State) (ds : Dests) (r : Word) : (s.writeBack ds r).d = if ds.d then r else s.d := rfl

@[simp] theorem State.writeBack_pc (s : State) (ds : Dests) (r : Word) : (s.writeBack ds r).pc = s.pc := rfl

@[simp] theorem State.writeBack_mem (s : State) (ds : Dests) (r : Word) : (s.writeBack ds r).mem = if ds.m then s.mem.write s.a.toNat r else s.mem := rfl

@[simp] theorem State.writeBack_steps (s : State) (ds : Dests) (r : Word) : (s.writeBack ds r).steps = s.steps := rfl

@[simp] theorem State.writeBack_status (s : State) (ds : Dests) (r : Word) : (s.writeBack ds r).status = s.status := rfl

@[simp] theorem State.writeBack_prog (s : State) (ds : Dests) (r : Word) : (s.writeBack ds r).prog = s.prog := rfl

@[simp] theorem State.writeBack_params (s : State) (ds : Dests) (r : Word) : (s.writeBack ds r).params = s.params := rfl

@[simp] theorem finish_ok (s t : State) : finish s (.ok t) = .next t := rfl

@[simp] theorem finish_error (s : State) (r : Raised) : finish s (.error r) = .next (s.raise r) := rfl

theorem State.halted_eq_false_iff (s : State) :
    s.halted = false ↔ s.status = .running ∧ s.pc.toNat < s.prog.length ∧ s.steps < s.params.stepLimit := by
  cases h : s.status <;> simp [State.halted, h, Status.isFault]

theorem State.fetch_isSome_of_running (s : State) (h : s.halted = false) : ∃ w, s.fetch = some w := by
  have := ((State.halted_eq_false_iff s).1 h).2.1
  exact ⟨_, List.getElem?_eq_getElem this⟩

end Sys2Proof.Machine
end

