-- ==== Sys2Proof/Laws/Execute.lean ====
section
/-! SUPPORT. Everything each shared operation can do, said once: the three ends of operand fetch, and the ends of a unary
operation, a binary one, a division and a JMP. -/

namespace Sys2Proof.Machine

/-- Operand fetch of one operand: reserved selector first, then the address of M, else the value. -/
theorem fetchUnary_eq (s : State) (w : Word) (sa : Sel) (ds : Dests) :
    fetchUnary s w sa ds =
      if .reserved ∈ [sa] then .error (illegalInstruction w)
      else if (.m ∈ [sa] ∨ ds.m = true) ∧ ¬ s.a.toNat < s.params.memSize then .error (memoryAddress s.a)
      else .ok (operandValue s sa) := by
  by_cases hr : s.a.toNat < s.params.memSize <;> cases sa <;> cases hm : ds.m <;>
    simp [fetchUnary, checkSelectors, operand, operandValue, State.memRead, State.checkDest, hr, hm, bind, Except.bind,
      pure, Except.pure]

/-- Operand fetch of a JMP. -/
theorem fetchPair_eq (s : State) (w : Word) (sa sb : Sel) :
    fetchPair s w sa sb =
      if .reserved ∈ [sa, sb] then .error (illegalInstruction w)
      else if .m ∈ [sa, sb] ∧ ¬ s.a.toNat < s.params.memSize then .error (memoryAddress s.a)
      else .ok (operandValue s sa, operandValue s sb) := by
  by_cases hr : s.a.toNat < s.params.memSize <;> cases sa <;> cases sb <;>
    simp [fetchPair, checkSelectors, operand, operandValue, State.memRead, hr, bind, Except.bind, pure, Except.pure]

/-- Operand fetch of a binary operation. -/
theorem fetchBinary_eq (s : State) (w : Word) (sa sb : Sel) (ds : Dests) :
    fetchBinary s w sa sb ds =
      if .reserved ∈ [sa, sb] then .error (illegalInstruction w)
      else if (.m ∈ [sa, sb] ∨ ds.m = true) ∧ ¬ s.a.toNat < s.params.memSize then .error (memoryAddress s.a)
      else .ok (operandValue s sa, operandValue s sb) := by
  by_cases hr : s.a.toNat < s.params.memSize <;> by_cases h : Sel.reserved ∈ [sa, sb] <;>
    by_cases hm : Sel.m ∈ [sa, sb] <;> cases hd : ds.m <;>
    simp [fetchBinary, fetchPair_eq, State.checkDest, h, hm, hd, hr, bind, Except.bind, pure, Except.pure]

/-- All a unary operation can do. -/
theorem unary_eq (f : Word → Word) (i : Instr) (sa : Sel) (ds : Dests) (s : State) :
    unary f i sa ds s =
      .next (if .reserved ∈ [sa] then s.raise (illegalInstruction (encode s.params.maps i))
        else if (.m ∈ [sa] ∨ ds.m = true) ∧ ¬ s.a.toNat < s.params.memSize then s.raise (memoryAddress s.a)
        else (s.writeBack ds (f (operandValue s sa))).advance) := by
  simp only [unary, fetchUnary_eq]
  split_ifs <;> rfl

/-- All a binary operation can do. -/
theorem binary_eq (g : Word → Word → Word) (i : Instr) (sa sb : Sel) (ds : Dests) (s : State) :
    binary g i sa sb ds s =
      .next (if .reserved ∈ [sa, sb] then s.raise (illegalInstruction (encode s.params.maps i))
        else if (.m ∈ [sa, sb] ∨ ds.m = true) ∧ ¬ s.a.toNat < s.params.memSize then s.raise (memoryAddress s.a)
        else (s.writeBack ds (g (operandValue s sa) (operandValue s sb))).advance) := by
  simp only [binary, fetchBinary_eq]
  split_ifs <;> rfl

/-- All a division can do. -/
theorem divide_eq (g : Word → Word → Word) (i : Instr) (sa sb : Sel) (ds : Dests) (s : State) :
    divide g i sa sb ds s =
      .next (if .reserved ∈ [sa, sb] then s.raise (illegalInstruction (encode s.params.maps i))
        else if (.m ∈ [sa, sb] ∨ ds.m = true) ∧ ¬ s.a.toNat < s.params.memSize then s.raise (memoryAddress s.a)
        else if operandValue s sb = 0 then s.raise (divideByZero (encode s.params.maps i))
        else (s.writeBack ds (g (operandValue s sa) (operandValue s sb))).advance) := by
  simp only [divide, fetchBinary_eq]
  split_ifs with h1 h2 h3
  · rfl
  · rfl
  · simp only [bind, Except.bind, if_pos h3]; rfl
  · simp only [bind, Except.bind, if_neg h3]; rfl

/-- All a JMP can do. -/
theorem jump_eq (cmp : Cmp) (sa sb : Sel) (s : State) :
    jump cmp sa sb s =
      if .reserved ∈ [sa, sb] then .next (s.raise (illegalInstruction (encode s.params.maps (cmp.instr sa sb))))
      else if refusedByPolicy s.params cmp sa = true then .refused .jumpTargetPolicy
      else if .m ∈ [sa, sb] ∧ ¬ s.a.toNat < s.params.memSize then .next (s.raise (memoryAddress s.a))
      else .next (if taken s.params.cmpSigned cmp (operandValue s sa) (operandValue s sb) then s.jumpToA else s.advance) := by
  simp only [jump, fetchPair_eq]
  split_ifs <;> simp_all [bind, Except.bind, pure, Except.pure]

/-- The result of a unary operation. -/
def unResult : UnOp → Word → Word
  | .copy => copyResult
  | .not => notResult
  | .neg => negResult

/-- The result of a binary operation, for a divisor that is not zero where it divides. -/
def binResult : BinOp → Word → Word → Word
  | .and => andResult
  | .or => orResult
  | .xor => xorResult
  | .add => addResult
  | .sub => subResult
  | .mul => mulResult
  | .div => divResult
  | .rem => remResult

/-- Whether an operation divides. -/
def divides : BinOp → Bool
  | .div | .rem => true
  | .and | .or | .xor | .add | .sub | .mul => false

/-- exec through the shape of the instruction: one equation for all twenty constructors. -/
theorem exec_eq (i : Instr) (s : State) :
    exec i s =
      match i.shape with
      | .imm v => .next ({ s with a := v.zeroExtend 16 } : State).advance
      | .un u sa ds => unary (unResult u) i sa ds s
      | .bin f sa sb ds => if divides f then divide (binResult f) i sa sb ds s else binary (binResult f) i sa sb ds s
      | .jmp c sa sb => jump c sa sb s := by
  cases i <;> rfl

end Sys2Proof.Machine
end

