-- ==== Sys2Proof/Laws/Memory.lean ====
section
/-! SUPPORT. Data memory: what a write changes, and that it keeps the canonical form. -/

namespace Sys2Proof.Machine

/-- A cell below every listed one holds zero. -/
theorem Memory.read_of_lt_all (mem : Memory) (k : Nat) (h : ∀ cell ∈ mem, k < cell.1) : mem.read k = 0 := by
  induction mem with
  | nil => rfl
  | cons head rest ih =>
    have h1 := h head (by simp)
    rw [Memory.read, if_neg (by omega), ih fun cell hc => h cell (by simp [hc])]

theorem Memory.read_eq_of_mem {mem : Memory} (hwf : mem.WellFormed) {k : Nat} {v : Word} (h : (k, v) ∈ mem) :
    mem.read k = v := by
  induction mem with
  | nil => simp at h
  | cons head rest ih =>
    obtain ⟨hs, hz⟩ := hwf
    rw [List.pairwise_cons] at hs
    rcases List.mem_cons.1 h with rfl | h
    · simp [Memory.read]
    · have := hs.1 _ h
      rw [Memory.read, if_neg (by simp at this; omega), ih ⟨hs.2, fun c hc => hz c (by simp [hc])⟩ h]

/-- The cells a write lists are the one written and cells that were listed. -/
theorem Memory.mem_write {mem : Memory} {k : Nat} {v : Word} {cell : Nat × Word} (h : cell ∈ mem.write k v) :
    cell = (k, v) ∨ cell ∈ mem := by
  induction mem with
  | nil => simp only [Memory.write] at h; split at h <;> simp_all
  | cons head rest ih =>
    simp only [Memory.write] at h
    split at h
    · split at h <;> simp_all
    · split at h
      · split at h <;> simp_all
        tauto
      · rcases List.mem_cons.1 h with rfl | h
        · simp
        · rcases ih h with h | h <;> simp [h]

theorem Memory.read_write_same (mem : Memory) (hwf : mem.WellFormed) (k : Nat) (v : Word) :
    (mem.write k v).read k = v := by
  induction mem with
  | nil => simp only [Memory.write]; split <;> simp_all [Memory.read]
  | cons head rest ih =>
    obtain ⟨hs, hz⟩ := hwf
    rw [List.pairwise_cons] at hs
    have hrest : Memory.WellFormed rest := ⟨hs.2, fun c hc => hz c (by simp [hc])⟩
    simp only [Memory.write]
    split_ifs with h1 h2 h3 h4
    · have : head.1 ≠ k := by omega
      rw [Memory.read, if_neg this, h2]
      exact Memory.read_of_lt_all rest k fun c hc => lt_trans h1 (hs.1 c hc)
    · simp [Memory.read]
    · rw [h4]
      exact Memory.read_of_lt_all rest k fun c hc => h3 ▸ hs.1 c hc
    · simp [Memory.read]
    · rw [Memory.read, if_neg (by omega), ih hrest]

theorem Memory.read_write_other (mem : Memory) {k k' : Nat} (v : Word) (h : k' ≠ k) :
    (mem.write k v).read k' = mem.read k' := by
  induction mem with
  | nil =>
    simp only [Memory.write]
    split <;> simp [Memory.read, Ne.symm h]
  | cons head rest ih =>
    simp only [Memory.write]
    split_ifs with h1 h2 h3 h4
    · rfl
    · simp [Memory.read, Ne.symm h]
    · simp [Memory.read, ← h3, Ne.symm h]
    · simp [Memory.read, ← h3, Ne.symm h]
    · simp [Memory.read, ih]

theorem Memory.read_write (mem : Memory) (hwf : mem.WellFormed) (k k' : Nat) (v : Word) :
    (mem.write k v).read k' = if k' = k then v else mem.read k' := by
  split_ifs with h
  · subst h; exact Memory.read_write_same mem hwf k' v
  · exact Memory.read_write_other mem v h

theorem Memory.write_wellFormed (mem : Memory) (hwf : mem.WellFormed) (k : Nat) (v : Word) :
    (mem.write k v).WellFormed := by
  induction mem with
  | nil => simp only [Memory.write]; split <;> simp_all [Memory.WellFormed]
  | cons head rest ih =>
    have hs := List.pairwise_cons.1 hwf.1
    have hz := hwf.2
    have hrest : Memory.WellFormed rest := ⟨hs.2, fun c hc => hz c (by simp [hc])⟩
    simp only [Memory.write]
    split_ifs with h1 h2 h3 h4
    · exact hwf
    · refine ⟨List.pairwise_cons.2 ⟨fun c hc => ?_, hwf.1⟩, ?_⟩
      · rcases List.mem_cons.1 hc with rfl | hc
        · exact h1
        · exact lt_trans h1 (hs.1 c hc)
      · intro c hc
        rcases List.mem_cons.1 hc with rfl | hc
        exacts [h2, hz c hc]
    · exact hrest
    · refine ⟨List.pairwise_cons.2 ⟨fun c hc => h3 ▸ hs.1 c hc, hs.2⟩, fun c hc => ?_⟩
      rcases List.mem_cons.1 hc with rfl | hc
      exacts [h4, hrest.2 c hc]
    · refine ⟨List.pairwise_cons.2 ⟨fun c hc => ?_, (ih hrest).1⟩, ?_⟩
      · rcases Memory.mem_write hc with rfl | hc
        · show head.1 < k; omega
        · exact hs.1 c hc
      · intro c hc
        rcases List.mem_cons.1 hc with rfl | hc
        · exact hz _ (by simp)
        · exact (ih hrest).2 c hc

theorem Memory.writeAll_wellFormed (cells : List (Nat × Word)) (mem : Memory) (hwf : mem.WellFormed) :
    (Memory.writeAll mem cells).WellFormed := by
  induction cells generalizing mem with
  | nil => exact hwf
  | cons cell rest ih => exact ih _ (Memory.write_wellFormed mem hwf _ _)

/-- A list of writes leaves a cell alone that it does not name. -/
theorem Memory.read_writeAll_other (cells : List (Nat × Word)) (mem : Memory) {k : Nat} (h : ∀ cell ∈ cells, cell.1 ≠ k) :
    (Memory.writeAll mem cells).read k = mem.read k := by
  induction cells generalizing mem with
  | nil => rfl
  | cons cell rest ih =>
    rw [show Memory.writeAll mem (cell :: rest) = Memory.writeAll (mem.write cell.1 cell.2) rest from rfl,
      ih _ fun x hx => h x (by simp [hx]), Memory.read_write_other _ _ (Ne.symm (h cell (by simp)))]

/-- A list of writes that names no cell twice leaves each cell with the value it gives. -/
theorem Memory.read_writeAll_mem (cells : List (Nat × Word)) (mem : Memory) (hwf : mem.WellFormed)
    (hn : (cells.map Prod.fst).Nodup) : ∀ cell ∈ cells, (Memory.writeAll mem cells).read cell.1 = cell.2 := by
  induction cells generalizing mem with
  | nil => simp
  | cons cell rest ih =>
    intro x hx
    rw [List.map_cons, List.nodup_cons] at hn
    rw [show Memory.writeAll mem (cell :: rest) = Memory.writeAll (mem.write cell.1 cell.2) rest from rfl]
    rcases List.mem_cons.1 hx with rfl | hx
    · rw [Memory.read_writeAll_other _ _ fun y hy he => hn.1 (List.mem_map.2 ⟨y, hy, he⟩), Memory.read_write_same _ hwf]
    · exact ih _ (Memory.write_wellFormed _ hwf _ _) hn.2 _ hx

/-- The cells a list of writes lists are cells it names or cells that were listed. -/
theorem Memory.mem_writeAll {cells : List (Nat × Word)} {mem : Memory} {cell : Nat × Word}
    (h : cell ∈ Memory.writeAll mem cells) : cell ∈ cells ∨ cell ∈ mem := by
  induction cells generalizing mem with
  | nil => exact .inr h
  | cons head rest ih =>
    rcases ih (mem := mem.write head.1 head.2) h with h | h
    · exact .inl (by simp [h])
    · rcases Memory.mem_write h with rfl | h
      · exact .inl (by simp)
      · exact .inr h

/-- Two canonical memories that read alike are equal. -/
theorem Memory.ext_read {m₁ m₂ : Memory} (h₁ : m₁.WellFormed) (h₂ : m₂.WellFormed)
    (h : ∀ k, m₁.read k = m₂.read k) : m₁ = m₂ := by
  have sub : ∀ {x y : Memory}, x.WellFormed → y.WellFormed → (∀ k, x.read k = y.read k) → ∀ c ∈ x, c ∈ y := by
    intro x y hx hy hxy c hc
    have hr := Memory.read_eq_of_mem hx hc
    rw [hxy] at hr
    by_contra hn
    have : ∀ (z : Memory), z.read c.1 ≠ 0 → (c.1, z.read c.1) ∈ z := by
      intro z
      induction z with
      | nil => simp [Memory.read]
      | cons head rest ih =>
        intro hz
        simp only [Memory.read] at hz ⊢
        split_ifs at hz ⊢ with he
        · simp [← he]
        · simp [ih hz]
    exact hn (by simpa [hr] using this y (by rw [hr]; exact hx.2 c hc))
  have hperm : m₁.Perm m₂ := by
    refine (List.perm_ext_iff_of_nodup ?_ ?_).2 fun c => ⟨sub h₁ h₂ h c, sub h₂ h₁ (fun k => (h k).symm) c⟩
    · exact h₁.1.imp fun hlt he => by simp [he] at hlt
    · exact h₂.1.imp fun hlt he => by simp [he] at hlt
  exact hperm.eq_of_pairwise (fun _ _ _ _ hab hba => absurd hab (by omega)) h₁.1 h₂.1

end Sys2Proof.Machine
end

