-- ==== Sys2Proof/Laws/PerInstr.lean ====
section
/-! SUPPORT. One statement about every instruction as syntax: the fields of its word stand where 30_encoding.md R52 to R54
put them, and the ignored fields are zero (R66, R70). -/

namespace Sys2Proof.Laws.EncodingFields

/-- The fields of the word of an instruction, under any maps. -/
def Statement (i : Instr) : Prop :=
  ∀ mp : Maps,
    match i.shape with
    | .imm v => (encode mp i).getLsbD 15 = false ∧ (encode mp i).extractLsb' 0 15 = v
    | .un u sa ds =>
      (encode mp i).getLsbD 15 = true ∧ (encode mp i).extractLsb' 11 4 = mp.opcode.code (.un u) ∧
        (encode mp i).extractLsb' 8 3 = mp.selector.code sa ∧ (encode mp i).extractLsb' 5 3 = 0 ∧
        (encode mp i).extractLsb' 0 5 = mp.mask.bits ds
    | .bin f sa sb ds =>
      (encode mp i).getLsbD 15 = true ∧ (encode mp i).extractLsb' 11 4 = mp.opcode.code (.bin f) ∧
        (encode mp i).extractLsb' 8 3 = mp.selector.code sa ∧ (encode mp i).extractLsb' 5 3 = mp.selector.code sb ∧
        (encode mp i).extractLsb' 0 5 = mp.mask.bits ds
    | .jmp c sa sb =>
      (encode mp i).getLsbD 15 = true ∧ (encode mp i).extractLsb' 11 4 = mp.opcode.code .jmp ∧
        (encode mp i).extractLsb' 8 3 = mp.selector.code sa ∧ (encode mp i).extractLsb' 5 3 = mp.selector.code sb ∧
        (encode mp i).extractLsb' 0 5 = 0#2 ++ mp.cmp.code c

/-- The fields of a word of the Operation shape, all at once. -/
theorem operationWord_all (o : BitVec 4) (x y : BitVec 3) (l : BitVec 5) :
    (operationWord o x y l).getLsbD 15 = true ∧ (operationWord o x y l).extractLsb' 11 4 = o ∧
      (operationWord o x y l).extractLsb' 8 3 = x ∧ (operationWord o x y l).extractLsb' 5 3 = y ∧
      (operationWord o x y l).extractLsb' 0 5 = l :=
  ⟨operationWord_shape o x y l, operationWord_opcode o x y l, operationWord_selA o x y l, operationWord_selB o x y l,
    operationWord_low o x y l⟩

theorem ldi (imm : BitVec 15) : Statement (.ldi imm) := fun mp => by
  constructor
  · simp only [encode, encodeShape, Instr.shape, BitVec.getLsbD_append]; simp
  · refine BitVec.eq_of_getLsbD_eq fun k hk => ?_
    simp only [encode, encodeShape, Instr.shape, BitVec.getLsbD_extractLsb', BitVec.getLsbD_append]
    simp [hk]

theorem copy (sa : Sel) (ds : Dests) : Statement (.copy sa ds) := fun _ => operationWord_all _ _ _ _

theorem not (sa : Sel) (ds : Dests) : Statement (.not sa ds) := fun _ => operationWord_all _ _ _ _

theorem neg (sa : Sel) (ds : Dests) : Statement (.neg sa ds) := fun _ => operationWord_all _ _ _ _

theorem and (sa sb : Sel) (ds : Dests) : Statement (.and sa sb ds) := fun _ => operationWord_all _ _ _ _

theorem or (sa sb : Sel) (ds : Dests) : Statement (.or sa sb ds) := fun _ => operationWord_all _ _ _ _

theorem xor (sa sb : Sel) (ds : Dests) : Statement (.xor sa sb ds) := fun _ => operationWord_all _ _ _ _

theorem add (sa sb : Sel) (ds : Dests) : Statement (.add sa sb ds) := fun _ => operationWord_all _ _ _ _

theorem sub (sa sb : Sel) (ds : Dests) : Statement (.sub sa sb ds) := fun _ => operationWord_all _ _ _ _

theorem mul (sa sb : Sel) (ds : Dests) : Statement (.mul sa sb ds) := fun _ => operationWord_all _ _ _ _

theorem div (sa sb : Sel) (ds : Dests) : Statement (.div sa sb ds) := fun _ => operationWord_all _ _ _ _

theorem rem (sa sb : Sel) (ds : Dests) : Statement (.rem sa sb ds) := fun _ => operationWord_all _ _ _ _

theorem jmpNv (sa sb : Sel) : Statement (.jmpNv sa sb) := fun _ => operationWord_all _ _ _ _

theorem jmpEq (sa sb : Sel) : Statement (.jmpEq sa sb) := fun _ => operationWord_all _ _ _ _

theorem jmpLt (sa sb : Sel) : Statement (.jmpLt sa sb) := fun _ => operationWord_all _ _ _ _

theorem jmpLe (sa sb : Sel) : Statement (.jmpLe sa sb) := fun _ => operationWord_all _ _ _ _

theorem jmpAl (sa sb : Sel) : Statement (.jmpAl sa sb) := fun _ => operationWord_all _ _ _ _

theorem jmpNe (sa sb : Sel) : Statement (.jmpNe sa sb) := fun _ => operationWord_all _ _ _ _

theorem jmpGe (sa sb : Sel) : Statement (.jmpGe sa sb) := fun _ => operationWord_all _ _ _ _

theorem jmpGt (sa sb : Sel) : Statement (.jmpGt sa sb) := fun _ => operationWord_all _ _ _ _

end Sys2Proof.Laws.EncodingFields
end

