-- ==== Sys2Proof/Laws/Step.lean ====
section
/-! SUPPORT. Everything an instruction and a step can do, said once. -/

namespace Sys2Proof.Machine

/-- Every way an instruction answers a next state: one of the three faults, a completed operation, or a JMP. -/
theorem exec_cases {i : Instr} {s t : State} (h : exec i s = .next t) :
    (¬ i.WellFormed ∧ t = s.raise (illegalInstruction (encode s.params.maps i))) ∨
    (i.WellFormed ∧ UsesM i ∧ s.params.memSize ≤ s.a.toNat ∧ t = s.raise (memoryAddress s.a)) ∨
    (∃ f sa sb ds, i.shape = .bin f sa sb ds ∧ divides f = true ∧ operandValue s sb = 0 ∧
      Readable s i.shape.sels i.shape.dests ∧ t = s.raise (divideByZero (encode s.params.maps i))) ∨
    ((∀ c sa sb, i.shape ≠ .jmp c sa sb) ∧ Readable s i.shape.sels i.shape.dests ∧
      ∃ r, t = (s.writeBack i.shape.dests r).advance) ∨
    (∃ c sa sb, i.shape = .jmp c sa sb ∧ Readable s i.shape.sels i.shape.dests ∧
      refusedByPolicy s.params c sa = false ∧
      t = if taken s.params.cmpSigned c (operandValue s sa) (operandValue s sb) then s.jumpToA else s.advance) := by
  rw [exec_eq] at h
  unfold Instr.WellFormed UsesM
  generalize hw : encode s.params.maps i = w
  cases hs : i.shape with
  | imm v =>
    simp only [hs] at h
    cases h
    refine .inr (.inr (.inr (.inl ⟨by simp, ⟨by simp [Shape.sels], by simp [Shape.sels, Shape.dests, Dests.empty]⟩,
      v.zeroExtend 16, ?_⟩)))
    simp [State.writeBack, Shape.dests, Dests.empty]
  | un u sa ds =>
    simp only [hs, unary_eq] at h
    injection h with h
    split_ifs at h with h1 h2
    · exact .inl ⟨by simpa only [Shape.sels, not_not] using h1, by rw [← h, hw]⟩
    · exact .inr (.inl ⟨by simpa only [Shape.sels, not_not] using h1, h2.1, by omega, h.symm⟩)
    · refine .inr (.inr (.inr (.inl ⟨by simp, ⟨h1, fun hm => ?_⟩, _, h.symm⟩)))
      by_contra hr
      exact h2 ⟨hm, hr⟩
  | bin f sa sb ds =>
    have fits : ∀ {t' : State}, ¬ ((.m ∈ [sa, sb] ∨ ds.m = true) ∧ ¬ s.a.toNat < s.params.memSize) →
        (.m ∈ [sa, sb] ∨ ds.m = true) → s.a.toNat < s.params.memSize := fun h2 hm => by
      by_contra hr
      exact h2 ⟨hm, hr⟩
    simp only [hs, binary_eq, divide_eq] at h
    cases hd : divides f with
    | false =>
      simp only [hd, Bool.false_eq_true, if_false] at h
      injection h with h
      split_ifs at h with h1 h2
      · exact .inl ⟨by simpa only [Shape.sels, not_not] using h1, by rw [← h, hw]⟩
      · exact .inr (.inl ⟨by simpa only [Shape.sels, not_not] using h1, h2.1, by omega, h.symm⟩)
      · exact .inr (.inr (.inr (.inl ⟨by simp, ⟨h1, fits (t' := s) h2⟩, _, h.symm⟩)))
    | true =>
      simp only [hd, if_true] at h
      injection h with h
      split_ifs at h with h1 h2 h3
      · exact .inl ⟨by simpa only [Shape.sels, not_not] using h1, by rw [← h, hw]⟩
      · exact .inr (.inl ⟨by simpa only [Shape.sels, not_not] using h1, h2.1, by omega, h.symm⟩)
      · exact .inr (.inr (.inl ⟨f, sa, sb, ds, rfl, hd, h3, ⟨h1, fits (t' := s) h2⟩, by rw [← h, hw]⟩))
      · exact .inr (.inr (.inr (.inl ⟨by simp, ⟨h1, fits (t' := s) h2⟩, _, h.symm⟩)))
  | jmp c sa sb =>
    have hi := shape_eq_jmp hs
    simp only [hs, jump_eq, hi] at h
    split_ifs at h with h1 h2 h3 <;> injection h with h
    · exact .inl ⟨by simpa only [Shape.sels, not_not] using h1, by rw [← h, hw]⟩
    · exact .inr (.inl ⟨by simpa only [Shape.sels, not_not] using h1, .inl h3.1, by omega, h.symm⟩)
    all_goals
      refine .inr (.inr (.inr (.inr ⟨c, sa, sb, rfl, ⟨h1, fun hm => ?_⟩, by simpa using h2, ?_⟩)))
      · by_contra hr
        exact h3 ⟨by simpa [Shape.dests, Dests.empty, Shape.sels] using hm, hr⟩
      · simp [*]

/-- Every way a step answers a next state. -/
theorem step_cases {s t : State} (h : step s = .next t) :
    (s.halted = true ∧ t = s) ∨
    (∃ w e, s.halted = false ∧ s.fetch = some w ∧ decode s.params.maps w = .error e ∧ t = s.raise (illegalInstruction w)) ∨
    (∃ w i, s.halted = false ∧ s.fetch = some w ∧ decode s.params.maps w = .ok i ∧ exec i s = .next t) := by
  unfold step at h
  cases hh : s.halted with
  | true => simp only [hh, if_true] at h; exact .inl ⟨rfl, by injection h with h; exact h.symm⟩
  | false =>
    simp only [hh, Bool.false_eq_true, if_false] at h
    cases hf : s.fetch with
    | none => simp [hf] at h
    | some w =>
      simp only [hf] at h
      cases hd : decode s.params.maps w with
      | error e => simp only [hd] at h; exact .inr (.inl ⟨w, e, rfl, rfl, hd, by injection h with h; exact h.symm⟩)
      | ok i => simp only [hd] at h; exact .inr (.inr ⟨w, i, rfl, rfl, hd, h⟩)

end Sys2Proof.Machine
end

