-- ==== Sys2Proof/Laws/Text.lean ====
section
/-! SUPPORT. The text of a word: what a run of the characters 0 and 1 spells, and which texts spell a word. -/

namespace Sys2Proof

/-- The number whose bits are `acc` and then the list, most significant first. -/
def bitsOf : List Bool → Nat → Nat
  | [], acc => acc
  | b :: rest, acc => bitsOf rest (2 * acc + b.toNat)

theorem bitsValue_map_bitChar (l : List Bool) (acc : Nat) : bitsValue (l.map bitChar) acc = some (bitsOf l acc) := by
  induction l generalizing acc with
  | nil => rfl
  | cons b l ih => cases b <;> simp [bitsValue, bitChar, bitsOf, ih]

theorem bitsOf_append_singleton (l : List Bool) (b : Bool) (acc : Nat) :
    bitsOf (l ++ [b]) acc = 2 * bitsOf l acc + b.toNat := by
  induction l generalizing acc with
  | nil => rfl
  | cons c l ih => exact ih _

theorem bitsOf_eq (l : List Bool) (acc : Nat) : bitsOf l acc = acc * 2 ^ l.length + bitsOf l 0 := by
  induction l generalizing acc with
  | nil => simp [bitsOf]
  | cons b l ih =>
    simp only [bitsOf]
    rw [ih, ih (2 * 0 + b.toNat), List.length_cons, pow_succ]
    ring

theorem bitsOf_lt (l : List Bool) : bitsOf l 0 < 2 ^ l.length := by
  induction l with
  | nil => simp [bitsOf]
  | cons b l ih =>
    rw [bitsOf, bitsOf_eq, List.length_cons, pow_succ]
    cases b <;> simp <;> omega

/-- Two lists of bits of one length that spell one number are the same. -/
theorem bitsOf_injective {l l' : List Bool} (hl : l.length = l'.length) (h : bitsOf l 0 = bitsOf l' 0) : l = l' := by
  induction l generalizing l' with
  | nil => cases l' with
    | nil => rfl
    | cons _ _ => simp at hl
  | cons b l ih =>
    cases l' with
    | nil => simp at hl
    | cons b' l' =>
      rw [List.length_cons, List.length_cons, Nat.add_right_cancel_iff] at hl
      rw [bitsOf, bitsOf, bitsOf_eq, bitsOf_eq l', ← hl] at h
      have h1 := bitsOf_lt l
      have h2 := bitsOf_lt l'
      rw [← hl] at h2
      have hb : b = b' := by cases b <;> cases b' <;> simp at h ⊢ <;> omega
      subst hb
      rw [ih hl (by omega)]

/-- The bits of a word, most significant first, spell its number. -/
theorem bitsOf_getMsbD (w : Word) : bitsOf ((List.range 16).map fun k => w.getMsbD k) 0 = w.toNat := by
  have hn : ∀ n, n ≤ 16 → bitsOf ((List.range n).map fun k => w.getMsbD k) 0 = w.toNat / 2 ^ (16 - n) := by
    intro n
    induction n with
    | zero => intro _; simp [bitsOf]; omega
    | succ n ih =>
      intro hn
      rw [List.range_succ, List.map_append, List.map_singleton, bitsOf_append_singleton, ih (by omega)]
      have h1 : 16 - n = (16 - (n + 1)) + 1 := by omega
      have h2 : w.getMsbD n = w.toNat.testBit (16 - (n + 1)) := by
        rw [show 16 - (n + 1) = 15 - n by omega]
        simp [BitVec.getMsbD, BitVec.getLsbD, show n < 16 by omega]
      rw [h2, h1, pow_succ, ← Nat.div_div_eq_div_mul, Nat.testBit_eq_decide_div_mod_eq]
      generalize w.toNat / 2 ^ (16 - (n + 1)) = q
      rcases Nat.mod_two_eq_zero_or_one q with h | h <;> simp [h] <;> omega
  have := hn 16 le_rfl
  rwa [Nat.sub_self, pow_zero, Nat.div_one] at this

/-- The characters of the text of a word. -/
theorem toList_textOfWord (w : Word) :
    (textOfWord w).toList = ((List.range 16).map fun k => w.getMsbD k).map bitChar := by
  simp [textOfWord, List.map_map]

/-- A run of the characters 0 and 1 is the text of some bits. -/
theorem exists_bits_of_chars {l : List Char} (h : ∀ ch ∈ l, ch = '0' ∨ ch = '1') : ∃ bs : List Bool, l = bs.map bitChar := by
  induction l with
  | nil => exact ⟨[], rfl⟩
  | cons ch l ih =>
    obtain ⟨bs, rfl⟩ := ih fun c hc => h c (by simp [hc])
    rcases h ch (by simp) with rfl | rfl
    · exact ⟨false :: bs, rfl⟩
    · exact ⟨true :: bs, rfl⟩

theorem chars_of_bitsValue {l : List Char} {acc n : Nat} (h : bitsValue l acc = some n) : ∀ ch ∈ l, ch = '0' ∨ ch = '1' := by
  induction l generalizing acc with
  | nil => simp
  | cons ch l ih =>
    simp only [bitsValue] at h
    split_ifs at h with h0 h1
    · simpa [h0] using ih h
    · simpa [h1] using ih h

/-- The texts that spell a word are those of exactly 16 characters, each 0 or 1 (70_reset_and_hazards.md R232). -/
theorem wordOfText_isSome (t : String) :
    (wordOfText t).isSome ↔ t.toList.length = 16 ∧ ∀ ch ∈ t.toList, ch = '0' ∨ ch = '1' := by
  unfold wordOfText
  constructor
  · intro h
    split_ifs at h with hl
    · refine ⟨hl, ?_⟩
      cases hb : bitsValue t.toList 0 with
      | none => simp [hb] at h
      | some n => exact chars_of_bitsValue hb
    · simp at h
  · rintro ⟨h, hc⟩
    obtain ⟨bs, hb⟩ := exists_bits_of_chars hc
    rw [if_pos h, hb, bitsValue_map_bitChar]
    rfl

/-- A program has words exactly if each of its texts has one. -/
theorem wordsOfTexts_isSome (ts : List String) :
    (Machine.wordsOfTexts ts).isSome ↔ ∀ t ∈ ts, (wordOfText t).isSome := by
  induction ts with
  | nil => simp [Machine.wordsOfTexts]
  | cons t ts ih =>
    simp only [Machine.wordsOfTexts, List.forall_mem_cons, ← ih]
    cases wordOfText t <;> cases Machine.wordsOfTexts ts <;> simp

end Sys2Proof
end

