-- ==== Sys2Proof/Tests/Slice0.lean ====
section
/-! SUPPORT. The model's own tests: the vectors of 95_test_vectors.md (their names are cited), worked by hand there or here
from the rules, and a witness for each statement that has hypotheses. -/

namespace Sys2Proof.Tests

open Sys2Proof.Machine

/-! ## Helpers -/

/-- A running machine at pc 0 with the given registers, memory and program. -/
def st (a b c d : Word) (mem : Memory := []) (prog : List Word := [0]) : State :=
  { State.reset with a := a, b := b, c := c, d := d, mem := mem, prog := prog }

/-- The state a step answers with. -/
def nextState {φ ρ : Type} : Host.Outcome State φ ρ → Option State
  | .next t => some t
  | .fault _ => none
  | .refused _ => none

/-- Why an instruction was refused. -/
def refusalOf {σ φ : Type} : Host.Outcome σ φ Refusal → Option Refusal
  | .next _ => none
  | .fault _ => none
  | .refused r => some r

/-- What a test reads of the next state. -/
def after {α : Type} (f : State → α) (s : State) : Option α := (nextState (step s)).map f

/-- Registers A to D, pc and steps of a running machine; nothing when it faulted. -/
def regsPcSteps (t : State) : Option (List Word × Word × Nat) :=
  if t.status = .running then some ([t.a, t.b, t.c, t.d], t.pc, t.steps) else none

/-- The mask of the letters given. -/
def mask (a b c d m : Bool) : Dests := ⟨a, b, c, d, m⟩

/-- The mask D. -/
def maskD : Dests := mask false false false true false

/-- The mask B. -/
def maskB : Dests := mask false true false false false

/-- The mask M. -/
def maskM : Dests := mask false false false false true

/-! ## Well-formedness -/

theorem test_wf_ldi : (Instr.ldi 32767).WellFormed := by decide
theorem test_wf_unused_selB : (Instr.not .a maskD).WellFormed := by decide
theorem test_ill_formed_unary : ¬ (Instr.copy .reserved maskD).WellFormed := by decide
theorem test_ill_formed_selA : ¬ (Instr.add .reserved .a maskD).WellFormed := by decide
theorem test_ill_formed_selB : ¬ (Instr.add .a .reserved maskD).WellFormed := by decide
theorem test_ill_formed_jmp_selA : ¬ (Instr.jmpNv .reserved .a).WellFormed := by decide
theorem test_ill_formed_jmp_selB : ¬ (Instr.jmpAl .a .reserved).WellFormed := by decide

/-! ## Decoding: words written field by field, shape, opcode, selA, selB, mask (R52 to R63) -/

theorem test_decode_ldi : decode Maps.default 0b0_000000000000010 = .ok (.ldi 2) := by decide -- E-2
theorem test_decode_copy : decode Maps.default 0b1_0000_110_000_10000 = .ok (.copy .m (mask true false false false false)) := by decide -- E-7
theorem test_decode_copy_all : decode Maps.default 0b1_0000_011_000_11111 = .ok (.copy .d (mask true true true true true)) := by decide -- E-9
theorem test_decode_not : decode Maps.default 0b1_0001_011_000_00010 = .ok (.not .d maskD) := by decide -- E-10
theorem test_decode_neg : decode Maps.default 0b1_0010_101_000_00010 = .ok (.neg .one maskD) := by decide -- E-11
theorem test_decode_and : decode Maps.default 0b1_0011_011_000_00010 = .ok (.and .d .a maskD) := by decide -- E-12
theorem test_decode_or : decode Maps.default 0b1_0100_011_000_00010 = .ok (.or .d .a maskD) := by decide -- E-13
theorem test_decode_xor : decode Maps.default 0b1_0101_011_000_00010 = .ok (.xor .d .a maskD) := by decide -- E-14
theorem test_decode_add : decode Maps.default 0b1_0110_110_101_00001 = .ok (.add .m .one maskM) := by decide -- E-20
theorem test_decode_sub : decode Maps.default 0b1_0111_110_101_10001 = .ok (.sub .m .one (mask true false false false true)) := by decide -- E-21
theorem test_decode_mul : decode Maps.default 0b1_1000_011_000_00010 = .ok (.mul .d .a maskD) := by decide -- E-17
theorem test_decode_div : decode Maps.default 0b1_1001_011_000_01000 = .ok (.div .d .a maskB) := by decide -- E-18
theorem test_decode_rem : decode Maps.default 0b1_1010_011_000_00100 = .ok (.rem .d .a (mask false false true false false)) := by decide -- P3 index 4
theorem test_decode_zero_operand : decode Maps.default 0b1_0000_100_000_00010 = .ok (.copy .zero maskD) := by decide -- E-8
theorem test_decode_c_operand : decode Maps.default 0b1_0110_011_010_00010 = .ok (.add .d .c maskD) := by decide -- P2 index 3
theorem test_decode_b_operand : decode Maps.default 0b1_0000_001_000_10000 = .ok (.copy .b (mask true false false false false)) := by decide -- P4 index 3
theorem test_decode_jmpNv : decode Maps.default 0b1_1011_011_100_00_000 = .ok (.jmpNv .d .zero) := by decide -- E-29
theorem test_decode_jmpEq : decode Maps.default 0b1_1011_011_100_00_001 = .ok (.jmpEq .d .zero) := by decide -- E-23
theorem test_decode_jmpLt : decode Maps.default 0b1_1011_011_100_00_010 = .ok (.jmpLt .d .zero) := by decide -- E-24
theorem test_decode_jmpLe : decode Maps.default 0b1_1011_011_100_00_011 = .ok (.jmpLe .d .zero) := by decide -- E-25
theorem test_decode_jmpAl : decode Maps.default 0b1_1011_000_000_00_100 = .ok (.jmpAl .a .a) := by decide -- E-22
theorem test_decode_jmpNe : decode Maps.default 0b1_1011_110_101_00_101 = .ok (.jmpNe .m .one) := by decide -- E-30
theorem test_decode_jmpGe : decode Maps.default 0b1_1011_011_100_00_110 = .ok (.jmpGe .d .zero) := by decide -- E-27
theorem test_decode_jmpGt : decode Maps.default 0b1_1011_011_100_11_111 = .ok (.jmpGt .d .zero) := by decide -- X-7

theorem test_illegal_opcodes : decode Maps.default 0xE000 = .error .reservedOpcode ∧ decode Maps.default 0xFFFF = .error .reservedOpcode := by decide -- X-1, X-2
theorem test_illegal_selA : decode Maps.default 0x8700 = .error .reservedSelA := by decide -- X-3
theorem test_illegal_selB : decode Maps.default 0xB0E2 = .error .reservedSelB ∧ decode Maps.default 0xD8E4 = .error .reservedSelB := by decide -- X-4, X-6
theorem test_ignored_selB : decode Maps.default 0x88E2 = decode Maps.default 0x8802 := by decide -- X-5

theorem test_encode : encode Maps.default (.sub .m .one (mask true false false false true)) = 0xBEB1 ∧
    encode Maps.default (.jmpNe .m .one) = 0xDEA5 ∧ encode Maps.default (.not .a maskD) = 0x8802 := by decide -- E-21, E-30, X-5

theorem test_text : textOfWord 0xB302 = "1011001100000010" ∧ wordOfText "1011001100000010" = some 0xB302 := by decide -- E-15
theorem test_text_refused : wordOfText "101100110000001" = none ∧ wordOfText "101100110000001x" = none := by decide -- R232

/-! ## Single instructions -/

theorem test_ldi_max : after regsPcSteps (st 0 0 0 0 [] [0x7FFF]) = some (some ([32767, 0, 0, 0], 1, 1)) := by decide -- I-3
theorem test_ldi_keeps : after (fun t => ([t.a, t.b, t.c, t.d], t.mem)) (st 0 1 2 3 [(5, 7)] [0x0005]) = some ([5, 1, 2, 3], [(5, 7)]) := by decide -- I-4
theorem test_copy_old_address : after (fun t => (t.a, t.mem)) (st 100 0 0 7 [] [0x8311]) = some (7, [(100, 7)]) := by decide -- U-COPY-6
theorem test_copy_last_cell : after regsPcSteps (st 24575 0 0 0 [(24575, 9)] [0x8602]) = some (some ([24575, 0, 0, 9], 1, 1)) := by decide -- U-COPY-4
theorem test_not : after (fun t => t.d) (st 0 0 0 0x00FF [] [0x8B02]) = some 0xFF00 := by decide -- U-NOT-1
theorem test_not_zero : after (fun t => t.d) (st 0 0 0 0 [] [0x8C02]) = some 65535 := by decide -- U-NOT-2
theorem test_neg : after (fun t => t.d) (st 5 0 0 0 [] [0x9002]) = some 65531 := by decide -- U-NEG-1
theorem test_neg_most_negative : after (fun t => t.a) (st 32768 0 0 0 [] [0x9010]) = some 32768 := by decide -- U-NEG-3
theorem test_and : after (fun t => t.d) (st 0x00FF 0 0 0x0FF0 [] [0x9B02]) = some 0x00F0 := by decide -- B-AND-1
theorem test_or : after (fun t => t.d) (st 0x00F0 0 0 0x0F00 [] [0xA302]) = some 0x0FF0 := by decide -- B-OR-1
theorem test_xor : after (fun t => t.d) (st 0x0F0F 0 0 0xFFFF [] [0xAB02]) = some 0xF0F0 := by decide -- B-XOR-1
theorem test_add_wraps : after (fun t => t.d) (st 0 0 0 65535 [] [0xB3A2]) = some 0 := by decide -- B-ADD-2
theorem test_add_cell : after (fun t => t.mem) (st 100 0 0 0 [(100, 41)] [0xB6A1]) = some [(100, 42)] := by decide -- B-ADD-6
theorem test_sub : after (fun t => t.d) (st 5 0 0 3 [] [0xBB02]) = some 65534 := by decide -- B-SUB-1
theorem test_sub_two_destinations : after (fun t => (t.a, t.mem)) (st 257 0 0 0 [(257, 300)] [0xBEB1]) = some (299, [(257, 299)]) := by decide -- B-SUB-3
theorem test_mul : after (fun t => t.d) (st 300 0 0 300 [] [0xC302]) = some 24464 := by decide -- B-MUL-1
theorem test_mul_wraps : after (fun t => t.d) (st 2 0 0 32768 [] [0xC302]) = some 0 := by decide -- B-MUL-3
theorem test_div_floor : after (fun t => t.b) (st 65534 0 0 7 [] [0xCB08]) = some 65532 := by decide -- B-DIV-3
theorem test_div_overflow : after (fun t => t.b) (st 65535 0 0 32768 [] [0xCB08]) = some 32768 := by decide -- B-DIV-5
theorem test_rem_dividend_negative : after (fun t => t.b) (st 7 0 0 65531 [] [0xD308]) = some 2 := by decide -- B-REM-5
theorem test_rem_divisor_negative : after (fun t => t.b) (st 65529 0 0 5 [] [0xD308]) = some 65534 := by decide -- B-REM-6

/-- The JMP word of J-1 to J-8 with comparison code `k`. -/
def jmpDB (k : Word) : Word := 0xDB20 + k

/-- pc after each of the eight comparison codes, for D and B as given, with target 7. -/
def jumps (d b : Word) : List (Option Word) :=
  [0, 1, 2, 3, 4, 5, 6, 7].map fun k => after (fun t => t.pc) (st 7 b 0 d [] (jmpDB k :: List.replicate 9 0))

theorem test_jmp_equal : jumps 5 5 = [1, 7, 1, 7, 7, 1, 7, 1].map some := by decide -- J-1
theorem test_jmp_signed_less : jumps 65535 0 = [1, 1, 7, 7, 7, 7, 1, 1].map some := by decide -- J-4
theorem test_jmp_signed_greater : jumps 32767 32768 = [1, 1, 1, 1, 7, 7, 7, 7].map some := by decide -- J-7
theorem test_jmp_past_the_end : after (fun t => (t.pc, t.halted, outcome t)) (st 65535 0 0 0 [] [0xD804]) =
    some (65535, true, .completed) := by decide -- J-11
theorem test_jmp_unsigned_if_parameter : after (fun t => t.pc) { st 7 0 0 65535 [] [jmpDB 2, 0] with
    params := { defaultParams with cmpSigned := false } } = some 1 := by decide -- R146, R147
theorem test_jmp_policy_refuses : refusalOf (step { st 7 0 0 1 [] [0xDB87] with
    params := { defaultParams with jmpTargetPolicy := .refuseIfDiffers } }) = some .jumpTargetPolicy := by decide -- R149

/-! ## Faults -/

theorem test_fault_read_address : after (fun t => (t.status, t.d, t.pc, t.steps)) (st 24576 0 0 0 [] [0x8602]) =
    some (.fault .memoryAddress 24576, 0, 0, 0) := by decide -- U-COPY-5
theorem test_fault_write_address : after (fun t => (t.status, t.mem)) (st 65535 0 0 1 [] [0x8301]) =
    some (.fault .memoryAddress 65535, []) := by decide -- U-COPY-8
theorem test_fault_divide : after (fun t => (t.status, t.d, t.pc)) (st 0 0 0 5 [] [0xCB82]) =
    some (.fault .divideByZero 0xCB82, 5, 0) := by decide -- B-DIV-9
theorem test_fault_divide_empty_mask : after State.status (st 0 0 0 7 [] [0xCB80]) = some (.fault .divideByZero 0xCB80) := by decide -- B-DIV-10
theorem test_fault_address_before_divide : after State.status (st 30000 0 0 7 [] [0xCE82]) = some (.fault .memoryAddress 30000) ∧
    after State.status (st 30000 0 0 7 [] [0xCB81]) = some (.fault .memoryAddress 30000) := by decide -- B-DIV-11, B-DIV-12
theorem test_fault_never_jump_reads : after State.status (st 30000 0 0 0 [] [0xDE80]) = some (.fault .memoryAddress 30000) := by decide -- J-12
theorem test_fault_illegal_first : after State.status (st 30000 0 0 0 [] [0xB6E1]) = some (.fault .illegalInstruction 0xB6E1) := by decide -- R208

/-! ## Data memory, load and run -/

theorem test_region_edges : [15, 16, 255, 256, 2047, 2048, 16383, 16384].map regionOf =
    [.registersAndAliases, .staticVariables, .staticVariables, .stack, .stack, .heap, .heap, .screen].map some := by decide -- R38
theorem test_region_edges_top : [20479, 20480, 20481, 20485, 20486, 20487, 20488, 24575].map regionOf =
    [.screen, .keyboard, .displaySegments, .displaySegments, .inputCell, .outputCell, .unused, .unused].map some ∧
    regionOf 24576 = none := by decide -- R38

/-- The six texts of program P1. -/
def p1 : List String :=
  ["0000000000000010", "1000000000000010", "0000000000000011", "1011001100000010", "0000000000000000", "1000001100000001"]

theorem test_load : (load (st 9 9 9 9) p1).toOption.map (fun t => (t.prog, t.a, t.mem)) =
    some ([0x0002, 0x8002, 0x0003, 0xB302, 0x0000, 0x8301], 0, []) := by decide -- P1
theorem test_run_p1 : ((load State.reset p1).toOption.bind fun s => nextState (run s)).map
    (fun t => (regsPcSteps t, t.mem, outcome t)) = some (some ([0, 0, 0, 5], 6, 6), [(0, 5)], .completed) := by decide -- P1
theorem test_load_refuses : (load State.reset ["01"]).toOption = none := by decide -- R232
theorem test_load_empty : (load State.reset []).toOption.map (fun t => (t.halted, stepReturns t, outcome t)) =
    some (true, false, .completed) := by decide -- P8
theorem test_cap_reached : (nextState (run { st 0 0 0 0 [] [1, 2, 3, 4] with
    params := { defaultParams with stepLimit := 3 } })).map (fun t => (t.steps, t.pc, t.a, outcome t)) =
    some (3, 3, 3, .didNotTerminate) := by decide -- P5
theorem test_end_before_cap : (nextState (run { st 0 0 0 0 [] [1, 2, 3] with
    params := { defaultParams with stepLimit := 3 } })).map (fun t => (t.steps, outcome t)) = some (3, .completed) := by decide -- P5

/-! ## The host's two questions -/

theorem test_table_word : decodeTableWord 16 0xB302 = some (.add .d .a maskD) := by decide
theorem test_fetch_word : after (fun t => (t.a, t.pc)) (State.reset.withFetchWord 16 0x7FFF) = some (32767, 1) := by decide
theorem test_fetch_word_halted : after (fun t => (t.a, t.pc, t.steps))
    ({ State.reset with pc := 3, steps := 16384, status := .fault .divideByZero 0 }.withFetchWord 16 2) = some (2, 4, 1) := by
  decide

/-! ## The assembler and the disassembler -/

/-- The words of an assembled text. -/
def asm (lines : List String) : Option (List Word) :=
  (assembleInstrs [] lines).toOption.map fun is => is.map (encode Maps.default)

/-- The kind of the error of a text that does not assemble. -/
def asmError (lines : List String) : Option AsmErrorKind :=
  match assembleInstrs [] lines with
  | .ok _ => none
  | .error e => some e.kind

theorem test_asm_p2 : asm ["@5", "C=A", "D=0", "(LOOP)", "D=D+C", "C=C-1", "C>0? LOOP", "@sum", "M=D"] =
    some [0x0005, 0x8004, 0x8402, 0xB342, 0xBAA4, 0x0003, 0xDA87, 0x0010, 0x8301] := by decide -- P2
theorem test_asm_literals : asm ["D=5"] = some [0x0005, 0x8002] ∧ asm ["D=100-D"] = some [0x0064, 0xB862] ∧
    asm ["D=-5"] = some [0x0005, 0x9002] := by decide -- A-2, A-4, A-5
theorem test_asm_blanks : asm ["  D = D + A   # add"] = some [0xB302] := by decide -- A-6
theorem test_asm_labels : asm ["(TOP)", "D=D+1", "GOTO TOP"] = some [0xB3A2, 0x0000, 0xD804] ∧
    asm ["GOTO END", "D=D+1", "(END)"] = some [0x0003, 0xD804, 0xB3A2] ∧
    asm ["D>0? L", "(L)", "M=D"] = some [0x0002, 0xDB87, 0x8301] := by decide -- A-LBL-1 to 3
theorem test_asm_variables : asm ["@x", "M=1", "@y", "M=1", "@x"] = some [0x0010, 0x8501, 0x0011, 0x8501, 0x0010] := by decide -- A-VAR-1
theorem test_asm_errors : asmError ["(LOOP)", "D=A", "(LOOP)"] = some (.duplicateLabel "LOOP".toList) ∧
    asmError ["GOTO NOWHERE"] = some (.undefinedLabel "NOWHERE".toList) ∧ asmError ["E=A"] = some .undefinedRegister ∧
    asmError ["D=+"] = some .badSyntax ∧ asmError ["@40000"] = some .literalRange ∧ asmError ["D=5+6"] = some .twoLiterals := by
  decide -- A-ERR-1 to 6
theorem test_disassemble : [0x0002, 0xB302, 0x831F, 0x8B02, 0x9502, 0xDB87, 0xD804, 0xDB80, 0xB3A0].map
    (fun w => (disassemble Maps.default w).toOption) =
    ["@2", "D=D+A", "ABCDM=D", "D=!D", "D=-1", "JMP D > 0", "JMP", "NOP", "NOP"].map some := by decide -- A-RT-1 to 8
theorem test_disassemble_illegal : (disassemble Maps.default 0xE000).toOption = none := by decide -- A-RT-9

/-! ## Witnesses: a concrete case that meets the hypotheses of each statement -/

/-- A state in the last cell of data memory, with a program of ten words. -/
def edge : State := st 24575 2 3 7 [(24575, 9)] (List.replicate 10 0)

/-- The same state one cell past the end. -/
def outside : State := { edge with a := 24576 }

/-- A machine under JMP_TARGET_POLICY = refuse_if_differs. -/
def strict : State := { edge with params := { defaultParams with jmpTargetPolicy := .refuseIfDiffers } }

theorem test_witness_DecodeOfEncodeIsTheInstruction : Maps.default.WellFormed ∧ (Instr.add .m .one maskM).WellFormed := by
  decide

theorem test_witness_EncodeOfDecodeClearsIgnoredFields :
    Maps.default.WellFormed ∧ decode Maps.default 0x88E2 = .ok (.not .a maskD) ∧ clearIgnored (.not .a maskD) 0x88E2 = 0x8802 ∧
      decode Maps.default 0xDB9F = .ok (.jmpGt .d .zero) ∧ clearIgnored (.jmpGt .d .zero) 0xDB9F = 0xDB87 := by decide

theorem test_witness_IgnoredFieldsAreNotDecoded :
    ((0x88E2 : Word).getLsbD 15 = true ∧ Maps.default.opcode.op? ((0x88E2 : Word).extractLsb' 11 4) = some (.un .not) ∧
      (0x88E2 : Word) &&& 0xFF1F = 0x8802 &&& 0xFF1F) ∧
    (0xDB9F : Word).getLsbD 15 = true ∧ Maps.default.opcode.op? ((0xDB9F : Word).extractLsb' 11 4) = some .jmp ∧
      (0xDB9F : Word) &&& 0xFFE7 = 0xDB87 &&& 0xFFE7 := by decide

theorem test_witness_WordTextRoundTrip : wordOfText "0111111111111111" = some 0x7FFF := by decide

theorem test_witness_CopyCompletesWithItsOperand : edge.mem.WellFormed ∧ Readable edge [.m] maskM ∧
    Readable outside [.a] maskD := by decide

theorem test_witness_NotAndNegComplete : edge.mem.WellFormed ∧ Readable edge [.m] (mask true true true true true) := by decide

theorem test_witness_BitwiseOperationsComplete : edge.mem.WellFormed ∧ Readable edge [.m, .m] maskM := by decide

theorem test_witness_WrappingArithmeticCompletes : edge.mem.WellFormed ∧ Readable edge [.m, .one] (mask true false false false true) := by
  decide

theorem test_witness_FloorDivisionCompletes : edge.mem.WellFormed ∧ Readable edge [.d, .m] .empty ∧ operandValue edge .m ≠ 0 ∧
    Readable (st 65535 0 0 32768) [.d, .a] maskB ∧ operandValue (st 65535 0 0 32768) .a ≠ 0 := by decide

theorem test_witness_JmpEqAndNeComplete : Readable edge [.d, .m] .empty ∧ edge.params.jmpTargetPolicy = .regA ∧
    Readable strict [.a, .b] .empty := by decide

theorem test_witness_OrderingJmpsComplete : Readable edge [.d, .b] .empty ∧ edge.params.jmpTargetPolicy = .regA ∧
    (7 : Word) = operandValue edge .d ∧ (2 : Word) = operandValue edge .b ∧ false = (7 : Word).slt 2 ∧
    false = (7 : Word).sle 2 ∧ edge.params.cmpSigned = true := by decide

theorem test_witness_NeverAndAlwaysJmpComplete : Readable strict [.d, .b] .empty ∧ Readable edge [.m, .m] .empty ∧
    edge.params.jmpTargetPolicy = .regA := by decide

theorem test_witness_TargetPolicyRefusesOnlyDifferingJmps : strict.params.jmpTargetPolicy = .refuseIfDiffers ∧
    Sel.reserved ∉ [Sel.b, Sel.c] ∧ Sel.reserved ∉ [Sel.a, Sel.c] := by decide

theorem test_witness_EmptyMaskAndNeverJumpOnlyAdvance :
    ((Instr.copy .m .empty).shape = .un .copy .m .empty ∧ (Instr.copy .m .empty).WellFormed ∧ .m ∈ (Instr.copy .m .empty).shape.sels ∧
      outside.params.memSize ≤ outside.a.toNat) ∧
    ((Instr.div .d .zero .empty).shape = .bin .div .d .zero .empty ∧ (Instr.div .d .zero .empty).WellFormed ∧
      Readable edge (Instr.div .d .zero .empty).shape.sels .empty ∧ operandValue edge .zero = 0) ∧
    (Instr.jmpNv .d .m).WellFormed ∧ Readable edge (Instr.jmpNv .d .m).shape.sels .empty := by decide

theorem test_witness_EmptyMaskDivides : Readable edge [.d, .b] .empty ∧ operandValue edge .b ≠ 0 := by decide

theorem test_witness_StoreGoesToTheOldAddress : edge.mem.WellFormed ∧ edge.status = .running ∧
    (nextState (exec (.copy .d (mask true false false false true)) edge)).map (fun t => (t.status, t.a, t.mem)) =
      some (.running, 7, [(24575, 7)]) := by decide

theorem test_witness_ReservedSelectorIsRaised : ¬ (Instr.jmpAl .m .reserved).WellFormed := by decide

theorem test_witness_AddressOutsideDataMemoryIsRaised :
    (Instr.jmpNv .m .a).WellFormed ∧ UsesM (.jmpNv .m .a) ∧ UsesM (.copy .d maskM) ∧
      outside.params.memSize ≤ outside.a.toNat ∧ outside.params.jmpTargetPolicy = .regA := by decide

theorem test_witness_ZeroDivisorIsRaised : Readable edge [.d, .zero] maskM ∧ operandValue edge .zero = 0 := by decide

theorem test_witness_IllegalWordIsRaised :
    (st 0 0 0 0 [] [0x8700]).halted = false ∧ (st 0 0 0 0 [] [0x8700]).prog[(st 0 0 0 0 [] [0x8700]).pc.toNat]? = some 0x8700 ∧
      decode (st 0 0 0 0 [] [0x8700]).params.maps 0x8700 = .error .reservedSelA := by decide

theorem test_witness_InstructionsChangeOnlyTheirDestinations :
    (nextState (exec (.add .d .m maskM) edge)).map (fun t => ([t.a, t.b, t.c, t.d], t.mem)) =
      some ([24575, 2, 3, 7], [(24575, 16)]) := by
  decide

theorem test_witness_StepKeepsProgramAndParameters : (nextState (step edge)).isSome ∧ (nextState (step { edge with pc := 10 })).isSome := by
  decide

theorem test_witness_StepCompletesOrRaises : edge.halted = false ∧ (nextState (step edge)).isSome ∧
    (nextState (step (st 0 0 0 0 [] [0x8700]))).isSome := by decide

theorem test_witness_PcAdvancesUnlessAJmpIsTaken : edge.status = .running ∧
    (nextState (exec (.jmpGt .d .b) edge)).map State.status = some .running ∧
    (nextState (exec (.copy .d (mask true false false false false)) edge)).map State.status = some .running := by decide

theorem test_witness_UnnamedRegistersPlayNoPart : Reg.b ≠ .a ∧ regSel .b ∉ (Instr.add .d .c maskB).shape.sels ∧
    edge.status = .running ∧ (nextState (exec (.add .d .c maskB) edge)).map State.status = some .running := by decide

theorem test_witness_HaltedMachineStaysAsItIs :
    ({ edge with status := .fault .divideByZero 0 } : State).status ≠ .running ∧
      ({ edge with pc := 10 } : State).prog.length ≤ ({ edge with pc := 10 } : State).pc.toNat ∧
      ({ edge with steps := 16384 } : State).params.stepLimit ≤ ({ edge with steps := 16384 } : State).steps := by decide

theorem test_witness_StepRunsTheDecodedInstruction : edge.status = .running ∧ edge.steps < edge.params.stepLimit ∧
    edge.prog[edge.pc.toNat]? = some 0 ∧ decode edge.params.maps 0 = .ok (.ldi 0) := by decide

theorem test_witness_StepAnswersANextState :
    refusalOf (step { strict with prog := [0xDB87] }) = some .jumpTargetPolicy := by decide

/-- A state of the invariant that no fault has left. -/
theorem test_witness_EveryStepKeepsTheInvariant : Invariant edge ∧ (nextState (step edge)).isSome := by
  refine ⟨⟨by decide, by decide, by decide, by decide, by decide, trivial⟩, by decide⟩

/-- A state of the invariant that a fault has left. -/
theorem test_witness_EveryStepKeepsTheInvariant_fault :
    Invariant { st 24576 0 0 0 [] [0x8602] with status := .fault .memoryAddress 24576 } := by
  refine ⟨by decide, by decide, by decide, by decide, by decide, ?_⟩
  exact ⟨by decide, rfl, by decide⟩

theorem test_witness_LoadMeetsTheInvariant : ParamsWellFormed State.reset.params ∧ (load State.reset p1).toOption.isSome := by decide

theorem test_witness_PcIncrementDoesNotWrap : Invariant edge ∧ edge.halted = false :=
  ⟨test_witness_EveryStepKeepsTheInvariant.1, by decide⟩

theorem test_witness_MemoryMapIsThePartitionOfTheTable : edge.mem.WellFormed ∧ edge.a.toNat < edge.params.memSize := by decide

theorem test_witness_StoredValueIsReadBack : edge.mem.WellFormed ∧ Sel.reserved ≠ .d ∧ edge.a.toNat < edge.params.memSize := by decide

theorem test_witness_LoadResetsEverything : [(0x0002 : Word)].length ≤ edge.params.progMax ∧
    (([(5, 1), (24575, 2)] : List (Nat × Word)).map Prod.fst).Nodup := by decide

theorem test_witness_NothingSurvivesLoad : edge.params = State.reset.params ∧ edge ≠ State.reset := by decide

theorem test_witness_LoadRefusesExactlyBadPrograms :
    (load { State.reset with params := { defaultParams with progMax := 0 } } p1).toOption = none ∧
      (load State.reset ["2000000000000000"]).toOption = none := by decide

theorem test_witness_ResetIsLoadOfTheEmptyProgram : edge.params = defaultParams := by decide

theorem test_witness_RunEndsInTheFirstHaltedState : (st 0 0 0 0 [] [1, 2, 3]).params.jmpTargetPolicy = .regA ∧
    (st 0 0 0 0 [] [1, 2, 3]).steps ≤ (st 0 0 0 0 [] [1, 2, 3]).params.stepLimit := by decide

theorem test_witness_CapHaltIsExact : (nextState (run { st 0 0 0 0 [] [0xD804] with
    params := { defaultParams with stepLimit := 4 } })).map (fun t => (t.steps, outcome t)) = some (4, .didNotTerminate) := by decide

/-- A program whose label is used before it is defined. -/
def forward : List String := ["GOTO END", "D=D+1", "(END)"]

theorem test_witness_AssembledInstructionsAreWellFormed : (assembleInstrs [] forward).toOption =
    some [.ldi 3, .jmpAl .a .a, .add .d .one maskD] := by decide

theorem test_witness_AssembledLengthIsTheWordCount : ((parseLines 0 forward).toOption.map wordsBefore) = some 3 ∧
    (assembleInstrs [] forward).toOption.isSome := by decide

theorem test_witness_GotoLoadsTheIndexOfItsLabel :
    (parseLines 0 forward).toOption = some ([(0, .goto "END".toList), (1, .set maskD (.bin .add (.sel .d) (.sel .one)))] ++
      (2, .labelDef "END".toList) :: []) ∧ (assembleInstrs [] forward).toOption.isSome := by decide

theorem test_witness_DuplicateLabelFailsAssembly : (parseLines 0 ["(LOOP)", "D=A", "(LOOP)"]).toOption =
    some ([] ++ (0, .labelDef "LOOP".toList) :: [(1, .set maskD (.un .copy (.sel .a)))] ++ (2, .labelDef "LOOP".toList) :: []) := by
  decide

theorem test_witness_UndefinedLabelFailsAssembly :
    (parseLines 0 ["GOTO NOWHERE"]).toOption = some [(0, .goto "NOWHERE".toList)] := by decide

/-- A program of `n` one-word statements and then a label that nothing uses, as parsed from line `k` on. -/
theorem parse_far_label (n k : Nat) : parseLines k (List.replicate n "JUMP" ++ ["(L)"]) =
    .ok ((List.range' k n).map (fun j => (j, Statement.jump)) ++ [(k + n, .labelDef ['L'])]) := by
  have hj : parseLine "JUMP" = .ok (some .jump) := rfl
  have hl : parseLine "(L)" = .ok (some (.labelDef ['L'])) := rfl
  induction n generalizing k with
  | zero => simp [parseLines, hl, Except.map]
  | succ n ih =>
    rw [List.replicate_succ, List.cons_append, parseLines, hj]
    simp only [ih]
    simp [Except.map, List.range'_succ, Nat.add_comm, Nat.add_left_comm]

theorem test_witness_LabelIndexOutOfRangeFailsAssembly :
    parseLines 0 (List.replicate 32768 "JUMP" ++ ["(L)"]) =
      .ok ((List.range' 0 32768).map (fun j => (j, Statement.jump)) ++ (32768, .labelDef ['L']) :: []) ∧
    32767 < wordsBefore ((List.range' 0 32768).map fun j => (j, Statement.jump)) := by
  refine ⟨parse_far_label 32768 0, ?_⟩
  have h : ∀ n k, wordsBefore ((List.range' k n).map fun j => (j, Statement.jump)) = n := by
    intro n
    induction n with
    | zero => intro k; rfl
    | succ n ih =>
      intro k
      have := ih (k + 1)
      simp_all [wordsBefore, List.range'_succ, Statement.wordCount]
      omega
  rw [h]
  decide

/-- The last index that fits defines a label, the next one does not (R173). -/
theorem test_label_index_edge (t u : Tables) (ht : t.forms.length = 32767) (hu : u.forms.length = 32768) :
    t.defineLabel 0 ['L'] = .ok { t with labels := t.labels ++ [(['L'], 32767)] } ∧
      u.defineLabel 0 ['L'] = .error ⟨0, .literalRange⟩ := by
  simp [Tables.defineLabel, ht, hu, literalMax]

theorem test_witness_AssembledTextsLoad : (assemble Maps.default [] forward).toOption =
    some ["0000000000000011", "1101100000000100", "1011001110100010"] := by decide

theorem test_witness_DisassembledLineAssemblesBack : (Instr.sub .m .one (mask true false false false true)).WellFormed ∧
    (Instr.sub .m .one (mask true false false false true)).shape.dests ≠ .empty ∧
    instrText (.sub .m .one (mask true false false false true)) = "AM=M-1" := by decide

end Sys2Proof.Tests
end

section
/-! PROOFS. What an instruction that completes leaves behind, in the terms of Completes; COPY is the first user. -/

namespace Sys2Proof.Machine

/-- The write-back and the advance of an operation with result `r` are a completion with that result. -/
theorem completes_writeBack_advance (s : State) (ds : Dests) (r : Word) (hwf : s.mem.WellFormed) :
    Completes s (s.writeBack ds r).advance ds r where
  a := rfl
  b := rfl
  c := rfl
  d := rfl
  cell k := by cases hm : ds.m <;> simp [hm, Memory.read_write _ hwf]
  pc := rfl
  steps := rfl
  status := rfl
  prog := rfl
  params := rfl

/-- A unary operation whose operand and destinations can be reached completes with its result. -/
theorem unary_completes {f : Word → Word} {i : Instr} {s : State} {sa : Sel} {ds : Dests} (hwf : s.mem.WellFormed)
    (h : Readable s [sa] ds) : ∃ t, unary f i sa ds s = .next t ∧ Completes s t ds (f (operandValue s sa)) := by
  obtain ⟨hsel, haddr⟩ := h
  refine ⟨_, ?_, completes_writeBack_advance s ds _ hwf⟩
  rw [unary_eq, if_neg hsel, if_neg fun ⟨hm, hout⟩ => hout (haddr hm)]

/-- COPY completes with its operand wherever its operand and its destinations can be reached (42_unary.md R110, R113). -/
theorem exec_copy_completes {s : State} {sa : Sel} {ds : Dests} (hwf : s.mem.WellFormed) (h : Readable s [sa] ds) :
    ∃ t, exec (.copy sa ds) s = .next t ∧ Completes s t ds (operandValue s sa) :=
  unary_completes (f := copyResult) (i := .copy sa ds) hwf h

end Sys2Proof.Machine
end

section
/-! PROOFS. The memory map of 20_memory.md R38: its rows do not overlap and end at cell 24576, so a cell's region is that of
the one row that covers it. -/

namespace Sys2Proof.Machine

/-- Each row ends where a later one begins, or before. -/
theorem memoryMap_rising : memoryMap.Pairwise fun r r' => r.first + r.count ≤ r'.first := by decide

theorem RegionRow.covers_iff (r : RegionRow) (addr : Nat) :
    r.covers addr = true ↔ r.first ≤ addr ∧ addr < r.first + r.count := by
  simp [RegionRow.covers]

/-- In a table whose rows do not overlap, the row found for a cell is any row that covers it. -/
theorem find?_covers_of_rising {rows : List RegionRow} {r : RegionRow} {addr : Nat}
    (hrise : rows.Pairwise fun r r' => r.first + r.count ≤ r'.first) (hr : r ∈ rows) (hc : r.covers addr = true) :
    rows.find? (fun r => r.covers addr) = some r := by
  induction rows with
  | nil => simp at hr
  | cons head rest ih =>
    obtain ⟨hhead, hrest⟩ := List.pairwise_cons.1 hrise
    rcases List.mem_cons.1 hr with rfl | hr
    · exact List.find?_cons_of_pos hc
    · have hskip : ¬ head.covers addr = true := by
        have := hhead r hr
        rw [RegionRow.covers_iff] at hc ⊢
        omega
      rw [List.find?_cons_of_neg (p := fun r : RegionRow => r.covers addr) hskip, ih hrest hr]

/-- A cell that a row of the table covers has the region of that row. -/
theorem regionOf_eq_some {first count addr : Nat} {region : Region} (hr : ⟨first, count, region⟩ ∈ memoryMap)
    (hfirst : first ≤ addr) (hlast : addr < first + count) : regionOf addr = some region := by
  rw [regionOf, find?_covers_of_rising memoryMap_rising hr ((RegionRow.covers_iff _ _).2 ⟨hfirst, hlast⟩),
    Option.map_some]

/-- No cell at or past the end of data memory has a region. -/
theorem regionOf_eq_none {addr : Nat} (h : 24576 ≤ addr) : regionOf addr = none := by
  have hend : ∀ r ∈ memoryMap, r.first + r.count ≤ 24576 := by decide
  rw [regionOf, Option.map_eq_none_iff, List.find?_eq_none]
  intro r hr
  have := hend r hr
  rw [RegionRow.covers_iff]
  omega

/-- The table of R38 as a chain of last cells. -/
theorem regionOf_eq (addr : Nat) : regionOf addr =
    if addr ≤ 15 then some .registersAndAliases else if addr ≤ 255 then some .staticVariables
    else if addr ≤ 2047 then some .stack else if addr ≤ 16383 then some .heap else if addr ≤ 20479 then some .screen
    else if addr ≤ 20480 then some .keyboard else if addr ≤ 20485 then some .displaySegments
    else if addr ≤ 20486 then some .inputCell else if addr ≤ 20487 then some .outputCell
    else if addr ≤ 24575 then some .unused else none := by
  split_ifs
  · exact regionOf_eq_some (first := 0) (count := 16) (by decide) (by omega) (by omega)
  · exact regionOf_eq_some (first := 16) (count := 240) (by decide) (by omega) (by omega)
  · exact regionOf_eq_some (first := 256) (count := 1792) (by decide) (by omega) (by omega)
  · exact regionOf_eq_some (first := 2048) (count := 14336) (by decide) (by omega) (by omega)
  · exact regionOf_eq_some (first := 16384) (count := 4096) (by decide) (by omega) (by omega)
  · exact regionOf_eq_some (first := 20480) (count := 1) (by decide) (by omega) (by omega)
  · exact regionOf_eq_some (first := 20481) (count := 5) (by decide) (by omega) (by omega)
  · exact regionOf_eq_some (first := 20486) (count := 1) (by decide) (by omega) (by omega)
  · exact regionOf_eq_some (first := 20487) (count := 1) (by decide) (by omega) (by omega)
  · exact regionOf_eq_some (first := 20488) (count := 4088) (by decide) (by omega) (by omega)
  · exact regionOf_eq_none (by omega)

/-- COPY from M to D reads the cell at A, whatever its region (R33, R38). -/
theorem exec_copy_m_to_d {s : State} (hwf : s.mem.WellFormed) (h : s.a.toNat < s.params.memSize) :
    ∃ t, exec (.copy .m { Dests.empty with d := true }) s = .next t ∧ t.d = s.mem.read s.a.toNat := by
  obtain ⟨t, ht, hdone⟩ :=
    exec_copy_completes (sa := .m) (ds := { Dests.empty with d := true }) hwf ⟨by decide, fun _ => h⟩
  exact ⟨t, ht, hdone.d⟩

/-- COPY from D to M writes the cell at A and no other, whatever its region (R34, R38). -/
theorem exec_copy_d_to_m {s : State} (hwf : s.mem.WellFormed) (h : s.a.toNat < s.params.memSize) :
    ∃ t, exec (.copy .d { Dests.empty with m := true }) s = .next t ∧
      ∀ k, t.mem.read k = if k = s.a.toNat then s.d else s.mem.read k := by
  obtain ⟨t, ht, hdone⟩ :=
    exec_copy_completes (sa := .d) (ds := { Dests.empty with m := true }) hwf ⟨by decide, fun _ => h⟩
  exact ⟨t, ht, fun k => by simpa [operandValue] using hdone.cell k⟩

/-- Settles O36: the rows of the table do not overlap, and COPY through M completes at every cell alike. -/
theorem memoryMapIsThePartitionOfTheTable : Obligations.MemoryMapIsThePartitionOfTheTable :=
  ⟨regionOf_eq, by decide, fun _ hwf h => ⟨exec_copy_m_to_d hwf h, exec_copy_d_to_m hwf h⟩⟩

end Sys2Proof.Machine
end

section
/-! PROOFS. Where an instruction that completes leaves pc: each way of completing sets it once. -/

namespace Sys2Proof.Machine

/-- A raise leaves the machine in Fault, not running. -/
theorem State.raise_status_ne_running (s : State) (r : Raised) : (s.raise r).status ≠ .running := nofun

/-- The two ways an instruction completes: an operation that writes its result back and advances, or a JMP. -/
theorem exec_completed_cases {i : Instr} {s t : State} (h : exec i s = .next t) (hrun : t.status = .running) :
    ((∀ c sa sb, i.shape ≠ .jmp c sa sb) ∧ Readable s i.shape.sels i.shape.dests ∧
      ∃ r, t = (s.writeBack i.shape.dests r).advance) ∨
    (∃ c sa sb, i.shape = .jmp c sa sb ∧ Readable s i.shape.sels i.shape.dests ∧
      refusedByPolicy s.params c sa = false ∧
      t = if taken s.params.cmpSigned c (operandValue s sa) (operandValue s sb) then s.jumpToA else s.advance) := by
  obtain ⟨-, rfl⟩ | ⟨-, -, -, rfl⟩ | ⟨-, -, -, -, -, -, -, -, rfl⟩ | hop | hjmp := exec_cases h
  · exact absurd hrun (s.raise_status_ne_running _)
  · exact absurd hrun (s.raise_status_ne_running _)
  · exact absurd hrun (s.raise_status_ne_running _)
  · exact .inl hop
  · exact .inr hjmp

/-- Settles O27: the write-back of an operation does not touch pc, and a JMP has one comparison and one pair of operands. -/
theorem pcAdvancesUnlessAJmpIsTaken : Obligations.PcAdvancesUnlessAJmpIsTaken := by
  intro i s t _ h hrun
  obtain ⟨hop, -, r, rfl⟩ | ⟨c, sa, sb, hshape, -, -, rfl⟩ := exec_completed_cases h hrun
  · refine ⟨fun _ => by simp, ?_⟩
    rintro c sa sb rfl
    exact absurd (Cmp.instr_shape c sa sb) (hop c sa sb)
  · refine ⟨fun hne => absurd (shape_eq_jmp hshape).symm (hne c sa sb), ?_⟩
    rintro c' sa' sb' rfl
    obtain ⟨rfl, rfl, rfl⟩ : c' = c ∧ sa' = sa ∧ sb' = sb := by simpa using hshape
    rw [apply_ite State.pc, State.jumpToA_pc, State.advance_pc]

end Sys2Proof.Machine
end

section
/-! PROOFS. LDI (41_immediate.md R100): the word of the instruction and the new content of A are the zero-extended literal. -/

namespace Sys2Proof.Machine

/-- The word of LDI is its zero-extended literal, whatever the numbering: the Immediate shape holds no numbered field (R52). -/
theorem encode_ldi (mp : Maps) (v : BitVec 15) : encode mp (.ldi v) = v.zeroExtend 16 :=
  (BitVec.setWidth_eq_append (x := v) (by decide)).symm

theorem literal_toNat (v : BitVec 15) : (v.zeroExtend 16).toNat = v.toNat := BitVec.toNat_setWidth_of_le (by decide)

theorem literal_bit15 (v : BitVec 15) : (v.zeroExtend 16).getLsbD 15 = false := by
  rw [BitVec.zeroExtend, BitVec.getLsbD_setWidth, BitVec.getLsbD_of_ge v 15 le_rfl, Bool.and_false]

/-- LDI has no check to fail: in every state it writes A and advances. -/
theorem exec_ldi (v : BitVec 15) (s : State) :
    exec (.ldi v) s = .next ({ s with a := v.zeroExtend 16 } : State).advance := rfl

/-- Settles O7: the advance keeps what the write of A left, and both the word and A are the zero-extended literal. -/
theorem ldiLoadsItsLiteral : Obligations.LdiLoadsItsLiteral := by
  intro v s
  have hword (mp : Maps) : (encode mp (.ldi v)).toNat = v.toNat := by rw [encode_ldi, literal_toNat]
  exact ⟨hword, _, exec_ldi v s, literal_toNat v, literal_bit15 v, State.advance_pc _, State.advance_b _,
    State.advance_c _, State.advance_d _, State.advance_mem _, State.advance_status _⟩

end Sys2Proof.Machine
end

section
/-! PROOFS. load (70_reset_and_hazards.md R230, R231): the texts of words spell those words, and load answers by the words
its texts spell and by the parameters. -/

namespace Sys2Proof.Machine

theorem wordOfText_textOfWord (w : Word) : wordOfText (textOfWord w) = some w := by
  have hlen : (textOfWord w).toList.length = 16 := by simp [toList_textOfWord]
  rw [wordOfText, if_pos hlen, toList_textOfWord, bitsValue_map_bitChar, bitsOf_getMsbD, Option.map_some,
    BitVec.ofNat_toNat, BitVec.setWidth_eq]

theorem wordsOfTexts_map_textOfWord (words : List Word) : wordsOfTexts (words.map textOfWord) = some words := by
  induction words with
  | nil => rfl
  | cons w ws ih => simp [wordsOfTexts, wordOfText_textOfWord, ih]

/-- What load answers when some text spells no word. -/
theorem load_of_malformed {program : List String} (s : State) (h : wordsOfTexts program = none) :
    load s program = .error .malformedWord := by
  simp [load, h]

/-- What load answers when the texts spell `words`: the state it had before enters through its parameters alone. -/
theorem load_of_words {program : List String} {words : List Word} (s : State) (h : wordsOfTexts program = some words) :
    load s program =
      if words.length ≤ s.params.progMax then .ok (freshState s.params words) else .error .tooManyWords := by
  simp [load, h]

theorem Memory.nil_wellFormed : Memory.WellFormed [] := ⟨.nil, nofun⟩

theorem freshState_mem_read_of_not_named (p : Params) (prog : List Word) {k : Nat} (h : ∀ cell ∈ p.initMem, cell.1 ≠ k) :
    (freshState p prog).mem.read k = 0 :=
  Memory.read_writeAll_other p.initMem [] h

theorem freshState_mem_read_of_named (p : Params) (prog : List Word) (hn : (p.initMem.map Prod.fst).Nodup) :
    ∀ cell ∈ p.initMem, (freshState p prog).mem.read cell.1 = cell.2 :=
  Memory.read_writeAll_mem p.initMem [] Memory.nil_wellFormed hn

/-- Settles O38: load accepts the texts of the words, and what it leaves is the fresh state of those words. -/
theorem loadResetsEverything : Obligations.LoadResetsEverything := by
  intro s words hlen
  have hload : load s (words.map textOfWord) = .ok (freshState s.params words) := by
    rw [load_of_words s (wordsOfTexts_map_textOfWord words), if_pos hlen]
  exact ⟨_, hload, rfl, rfl, rfl, rfl, rfl, rfl, rfl, rfl, rfl,
    fun _ => freshState_mem_read_of_not_named s.params words, freshState_mem_read_of_named s.params words⟩

/-- Settles O39: whether or not the texts spell words, the answer names no part of the old state but its parameters. -/
theorem nothingSurvivesLoad : Obligations.NothingSurvivesLoad := by
  intro s s' program hparams
  cases h : wordsOfTexts program with
  | none => rw [load_of_malformed s h, load_of_malformed s' h]
  | some words => rw [load_of_words s h, load_of_words s' h, hparams]

end Sys2Proof.Machine
end

section
/-! PROOFS. The four classes of instructions, and the decoder and the encoder on each (30_encoding.md R64 to R70). -/

namespace Sys2Proof

/-! ## Classes of instructions -/

/-- Every instruction is an immediate load, a unary operation, a binary one or a JMP (R57). -/
theorem Instr.class_cases (i : Instr) :
    (∃ v, i = .ldi v) ∨ (∃ u sa ds, i = UnOp.instr u sa ds) ∨ (∃ f sa sb ds, i = BinOp.instr f sa sb ds) ∨
      ∃ c sa sb, i = Cmp.instr c sa sb := by
  cases hs : i.shape with
  | imm v => exact .inl ⟨v, Instr.shape_injective hs⟩
  | un u sa ds => exact .inr (.inl ⟨u, sa, ds, Instr.shape_injective (by simp [hs])⟩)
  | bin f sa sb ds => exact .inr (.inr (.inl ⟨f, sa, sb, ds, Instr.shape_injective (by simp [hs])⟩))
  | jmp c sa sb => exact .inr (.inr (.inr ⟨c, sa, sb, Instr.shape_injective (by simp [hs])⟩))

theorem UnOp.instr_wellFormed_iff (u : UnOp) (sa : Sel) (ds : Dests) : (u.instr sa ds).WellFormed ↔ sa ≠ .reserved := by
  simp [Instr.WellFormed, Shape.sels, eq_comm]

theorem BinOp.instr_wellFormed_iff (f : BinOp) (sa sb : Sel) (ds : Dests) :
    (f.instr sa sb ds).WellFormed ↔ sa ≠ .reserved ∧ sb ≠ .reserved := by
  simp [Instr.WellFormed, Shape.sels, eq_comm]

theorem Cmp.instr_wellFormed_iff (c : Cmp) (sa sb : Sel) :
    (c.instr sa sb).WellFormed ↔ sa ≠ .reserved ∧ sb ≠ .reserved := by
  simp [Instr.WellFormed, Shape.sels, eq_comm]

/-! ## The word of each class -/

theorem encode_un (mp : Maps) (u : UnOp) (sa : Sel) (ds : Dests) :
    encode mp (u.instr sa ds) = operationWord (mp.opcode.code (.un u)) (mp.selector.code sa) 0 (mp.mask.bits ds) := by
  rw [encode, UnOp.instr_shape, encodeShape]

theorem encode_bin (mp : Maps) (f : BinOp) (sa sb : Sel) (ds : Dests) :
    encode mp (f.instr sa sb ds) =
      operationWord (mp.opcode.code (.bin f)) (mp.selector.code sa) (mp.selector.code sb) (mp.mask.bits ds) := by
  rw [encode, BinOp.instr_shape, encodeShape]

theorem encode_jmp (mp : Maps) (c : Cmp) (sa sb : Sel) :
    encode mp (c.instr sa sb) =
      operationWord (mp.opcode.code .jmp) (mp.selector.code sa) (mp.selector.code sb) (0#2 ++ mp.cmp.code c) := by
  rw [encode, Cmp.instr_shape, encodeShape]

/-! ## Decoding what was encoded -/

/-- The comparison code of a JMP word is the low three bits of its low field (R62). -/
theorem cmpField_append (c : BitVec 3) : (0#2 ++ c : BitVec 5).extractLsb' 0 3 = c := by
  refine BitVec.eq_of_getLsbD_eq fun k hk => ?_
  rw [BitVec.getLsbD_extractLsb', BitVec.getLsbD_append]
  simp [hk]

theorem decode_encode_ldi (mp : Maps) (v : BitVec 15) : decode mp (encode mp (.ldi v)) = .ok (.ldi v) := by
  obtain ⟨hbit, hfield⟩ := Laws.EncodingFields.ldi v mp
  rw [decode, if_pos hbit, hfield]

theorem decode_encode_un {mp : Maps} (hmp : mp.WellFormed) (u : UnOp) {sa : Sel} (ds : Dests) (ha : sa ≠ .reserved) :
    decode mp (encode mp (u.instr sa ds)) = .ok (u.instr sa ds) := by
  obtain ⟨hop, hsel, hmask, -⟩ := hmp
  simp only [encode_un, decode_operationWord, decodeOperation, OpcodeMap.op?_code _ hop, SelectorMap.sel_code _ hsel,
    MaskMap.dests_bits _ hmask, if_neg ha]

theorem decode_encode_bin {mp : Maps} (hmp : mp.WellFormed) (f : BinOp) {sa sb : Sel} (ds : Dests) (ha : sa ≠ .reserved)
    (hb : sb ≠ .reserved) : decode mp (encode mp (f.instr sa sb ds)) = .ok (f.instr sa sb ds) := by
  obtain ⟨hop, hsel, hmask, -⟩ := hmp
  simp only [encode_bin, decode_operationWord, decodeOperation, OpcodeMap.op?_code _ hop, SelectorMap.sel_code _ hsel,
    MaskMap.dests_bits _ hmask, if_neg ha, if_neg hb]

theorem decode_encode_jmp {mp : Maps} (hmp : mp.WellFormed) (c : Cmp) {sa sb : Sel} (ha : sa ≠ .reserved)
    (hb : sb ≠ .reserved) : decode mp (encode mp (c.instr sa sb)) = .ok (c.instr sa sb) := by
  obtain ⟨hop, hsel, -, hcmp⟩ := hmp
  simp only [encode_jmp, decode_operationWord, decodeOperation, OpcodeMap.op?_code _ hop, SelectorMap.sel_code _ hsel,
    cmpField_append, CmpMap.cmp?_code _ hcmp, if_neg ha, if_neg hb]

/-- Settles O1: in each class every field of the word is inverted by its lookup. -/
theorem decodeOfEncodeIsTheInstruction : Obligations.DecodeOfEncodeIsTheInstruction := by
  intro mp i hmp hi
  obtain ⟨v, rfl⟩ | ⟨u, sa, ds, rfl⟩ | ⟨f, sa, sb, ds, rfl⟩ | ⟨c, sa, sb, rfl⟩ := i.class_cases
  · exact decode_encode_ldi mp v
  · exact decode_encode_un hmp u ds ((u.instr_wellFormed_iff sa ds).1 hi)
  · obtain ⟨ha, hb⟩ := (f.instr_wellFormed_iff sa sb ds).1 hi
    exact decode_encode_bin hmp f ds ha hb
  · obtain ⟨ha, hb⟩ := (c.instr_wellFormed_iff sa sb).1 hi
    exact decode_encode_jmp hmp c ha hb

/-! ## Encoding what was decoded -/

/-- What a legal word of the Operation shape decodes to, by the class of its opcode. -/
theorem decodeOperation_cases {mp : Maps} {op : Op} {x y : BitVec 3} {l : BitVec 5} {i : Instr}
    (h : decodeOperation mp op x y l = .ok i) :
    mp.selector.sel x ≠ .reserved ∧
      ((∃ u, op = .un u ∧ i = u.instr (mp.selector.sel x) (mp.mask.dests l)) ∨
        mp.selector.sel y ≠ .reserved ∧
          ((∃ f, op = .bin f ∧ i = f.instr (mp.selector.sel x) (mp.selector.sel y) (mp.mask.dests l)) ∨
            ∃ c, op = .jmp ∧ mp.cmp.cmp? (l.extractLsb' 0 3) = some c ∧
              i = c.instr (mp.selector.sel x) (mp.selector.sel y))) := by
  simp only [decodeOperation] at h
  split at h
  · cases h
  · next ha =>
    refine ⟨ha, ?_⟩
    cases op with
    | un u => cases h; exact .inl ⟨u, rfl, rfl⟩
    | bin f =>
      simp only at h
      split at h <;> cases h
      next hb => exact .inr ⟨hb, .inl ⟨f, rfl, rfl⟩⟩
    | jmp =>
      simp only at h
      split at h
      · cases h
      · next hb =>
        split at h <;> cases h
        next c hc => exact .inr ⟨hb, .inr ⟨c, rfl, hc, rfl⟩⟩

/-- The two shapes of a legal word (R51 to R54). -/
theorem decode_cases {mp : Maps} {w : Word} {i : Instr} (h : decode mp w = .ok i) :
    w.getLsbD 15 = false ∧ i = .ldi (w.extractLsb' 0 15) ∨
      ∃ op, w.getLsbD 15 = true ∧ mp.opcode.op? (w.extractLsb' 11 4) = some op ∧
        decodeOperation mp op (w.extractLsb' 8 3) (w.extractLsb' 5 3) (w.extractLsb' 0 5) = .ok i := by
  unfold decode at h
  split at h
  · next h15 => cases h; exact .inl ⟨h15, rfl⟩
  · next h15 =>
    split at h
    · cases h
    · next op hop => exact .inr ⟨op, by simpa using h15, hop, h⟩

/-- A mask that clears selB makes it the zero an encoder writes (R66). -/
theorem clear_selB (o : BitVec 4) (x y : BitVec 3) (l : BitVec 5) :
    operationWord o x y l &&& 0xFF1F = operationWord o x 0 l := by
  refine BitVec.eq_of_getLsbD_eq fun k hk => ?_
  rw [BitVec.getLsbD_and, getLsbD_operationWord, getLsbD_operationWord]
  interval_cases k <;> simp

/-- A mask that clears bits 4 and 3 makes them the zeros an encoder writes above a comparison code (R66). -/
theorem clear_aboveCmp (o : BitVec 4) (x y : BitVec 3) (l : BitVec 5) :
    operationWord o x y l &&& 0xFFE7 = operationWord o x y (0#2 ++ l.extractLsb' 0 3) := by
  refine BitVec.eq_of_getLsbD_eq fun k hk => ?_
  rw [BitVec.getLsbD_and, getLsbD_operationWord, getLsbD_operationWord, BitVec.getLsbD_append]
  interval_cases k <;> simp

/-- Settles O2: each field of a legal word is the number of what it was looked up as. -/
theorem encodeOfDecodeClearsIgnoredFields : Obligations.EncodeOfDecodeClearsIgnoredFields := by
  intro mp w i hmp h
  obtain ⟨-, -, hmask, -⟩ := hmp
  obtain ⟨h15, rfl⟩ | ⟨op, h15, hop, h⟩ := decode_cases h
  · exact immediate_fields w h15
  obtain ⟨ha, h⟩ := decodeOperation_cases h
  have hcode := OpcodeMap.code_op? hop
  have hselA := SelectorMap.code_sel ha
  have hw := operationWord_fields w h15
  obtain ⟨u, rfl, rfl⟩ | ⟨hb, ⟨f, rfl, rfl⟩ | ⟨c, rfl, hc, rfl⟩⟩ := h
  · rw [clearIgnored, UnOp.instr_shape, encode_un, hcode, hselA, MaskMap.bits_dests _ hmask, ← clear_selB, hw]
  · rw [clearIgnored, BinOp.instr_shape, encode_bin, hcode, hselA, SelectorMap.code_sel hb, MaskMap.bits_dests _ hmask, hw]
  · rw [clearIgnored, Cmp.instr_shape, encode_jmp, hcode, hselA, SelectorMap.code_sel hb, CmpMap.code_cmp? hc,
      ← clear_aboveCmp, hw]

end Sys2Proof
end

section
/-! PROOFS. Which words the decoder refuses, and which bits it never looks at (30_encoding.md R64 to R66). -/

namespace Sys2Proof

/-- No word decodes to an instruction that uses the reserved selector (R65). -/
theorem decode_wellFormed {mp : Maps} {w : Word} {i : Instr} (h : decode mp w = .ok i) : i.WellFormed := by
  obtain ⟨-, rfl⟩ | ⟨op, -, -, h⟩ := decode_cases h
  · exact Instr.wellFormed_ldi _
  obtain ⟨ha, ⟨u, -, rfl⟩ | ⟨hb, ⟨f, -, rfl⟩ | ⟨c, -, -, rfl⟩⟩⟩ := decodeOperation_cases h
  · exact UnOp.instr_wellFormed u _ ha
  · exact BinOp.instr_wellFormed f _ ha hb
  · exact Cmp.instr_wellFormed c ha hb

/-! ## The default numbers -/

/-- The opcode numbers 12 to 15 name nothing (R64). -/
theorem default_op?_eq_none : ∀ o : BitVec 4, Maps.default.opcode.op? o = none → 12 ≤ o.toNat := by decide

theorem default_code_lt (op : Op) : (Maps.default.opcode.code op).toNat < 12 := by
  rcases op with u | f | _
  · cases u <;> decide
  · cases f <;> decide
  · decide

/-- The opcode numbers of the operations that use selB are 3 and up (R57). -/
theorem default_code_usesSelB (op : Op) : 3 ≤ (Maps.default.opcode.code op).toNat ↔ ∀ u, op ≠ .un u := by
  rcases op with u | f | _
  · cases u <;> simp <;> decide
  · cases f <;> simp <;> decide
  · simp; decide

theorem default_sel_eq_reserved : ∀ x : BitVec 3, Maps.default.selector.sel x = .reserved ↔ x.toNat = 7 := by decide

theorem default_cmp?_isSome : ∀ x : BitVec 3, (Maps.default.cmp.cmp? x).isSome := by decide

/-- An operation is refused under the default numbers for a selector 7 that it uses. -/
theorem decodeOperation_default_error_iff (op : Op) (x y : BitVec 3) (l : BitVec 5) :
    (∃ e, decodeOperation Maps.default op x y l = .error e) ↔ x.toNat = 7 ∨ (∀ u, op ≠ .un u) ∧ y.toNat = 7 := by
  obtain ⟨c, hc⟩ := Option.isSome_iff_exists.1 (default_cmp?_isSome (l.extractLsb' 0 3))
  simp only [decodeOperation, hc, default_sel_eq_reserved]
  by_cases hx : x.toNat = 7
  · simp [hx]
  · cases op <;> by_cases hy : y.toNat = 7 <;> simp [hx, hy]

/-- Settles O3: an unassigned opcode is 12 or more, and an assigned one uses selB exactly from 3 on. -/
theorem defaultDecoderRefusesExactlyTheReservedWords : Obligations.DefaultDecoderRefusesExactlyTheReservedWords := by
  intro w
  by_cases h15 : w.getLsbD 15 = true
  case neg => simp only [decode, Bool.eq_false_iff.2 h15]; simp
  rw [← operationWord_fields w h15, decode_operationWord, operationWord_shape, operationWord_opcode, operationWord_selA,
    operationWord_selB]
  cases hop : Maps.default.opcode.op? (w.extractLsb' 11 4) with
  | none =>
    have hnum := default_op?_eq_none _ hop
    exact ⟨fun _ => ⟨rfl, .inl hnum⟩, fun _ => ⟨_, rfl⟩⟩
  | some op =>
    have hlt := default_code_lt op
    have huses := default_code_usesSelB op
    rw [OpcodeMap.code_op? hop] at hlt huses
    simp only [decodeOperation_default_error_iff, huses, Nat.not_le.2 hlt, false_or, true_and]

/-! ## Ignored fields -/

/-- Words that agree under a mask agree in every field the mask keeps. -/
theorem extractLsb'_eq_of_and_eq {w w' mask : Word} (h : w &&& mask = w' &&& mask) (start len : Nat)
    (hmask : ∀ k < len, mask.getLsbD (start + k) = true) : w.extractLsb' start len = w'.extractLsb' start len := by
  refine BitVec.eq_of_getLsbD_eq fun k hk => ?_
  have hbit := congrArg (BitVec.getLsbD · (start + k)) h
  simpa [BitVec.getLsbD_extractLsb', hk, hmask k hk] using hbit

theorem getLsbD_eq_of_and_eq {w w' mask : Word} (h : w &&& mask = w' &&& mask) (k : Nat) (hmask : mask.getLsbD k = true) :
    w.getLsbD k = w'.getLsbD k := by
  simpa [hmask] using congrArg (BitVec.getLsbD · k) h

/-- The comparison field of the low field is bits 2 to 0 of the word (R62). -/
theorem cmpField_extract (w : Word) : (w.extractLsb' 0 5).extractLsb' 0 3 = w.extractLsb' 0 3 := by
  refine BitVec.eq_of_getLsbD_eq fun k hk => ?_
  simp [BitVec.getLsbD_extractLsb']

theorem decode_of_bit15 {mp : Maps} {w : Word} {op : Op} (h15 : w.getLsbD 15 = true)
    (hop : mp.opcode.op? (w.extractLsb' 11 4) = some op) :
    decode mp w = decodeOperation mp op (w.extractLsb' 8 3) (w.extractLsb' 5 3) (w.extractLsb' 0 5) := by
  rw [decode, if_neg (by simp [h15]), hop]

/-- A unary operation does not read selB. -/
theorem decodeOperation_un (mp : Maps) (u : UnOp) (x y y' : BitVec 3) (l : BitVec 5) :
    decodeOperation mp (.un u) x y l = decodeOperation mp (.un u) x y' l := rfl

/-- A JMP reads of the low field its comparison code only. -/
theorem decodeOperation_jmp {mp : Maps} {l l' : BitVec 5} (x y : BitVec 3)
    (h : l.extractLsb' 0 3 = l'.extractLsb' 0 3) :
    decodeOperation mp .jmp x y l = decodeOperation mp .jmp x y l' := by
  simp only [decodeOperation, h]

/-- Settles O4: the two masks keep every field that the class of the opcode reads. -/
theorem ignoredFieldsAreNotDecoded : Obligations.IgnoredFieldsAreNotDecoded := by
  intro mp w w' h15 h
  obtain ⟨⟨u, hop⟩, h⟩ | ⟨hop, h⟩ := h
  · have h15' := h15 ▸ getLsbD_eq_of_and_eq h 15 (by decide)
    have hopcode := extractLsb'_eq_of_and_eq h 11 4 (by decide)
    have hselA := extractLsb'_eq_of_and_eq h 8 3 (by decide)
    have hlow := extractLsb'_eq_of_and_eq h 0 5 (by decide)
    rw [decode_of_bit15 h15 hop, decode_of_bit15 h15'.symm (hopcode ▸ hop), hselA, hlow]
    exact decodeOperation_un mp u _ _ _ _
  · have h15' := h15 ▸ getLsbD_eq_of_and_eq h 15 (by decide)
    have hopcode := extractLsb'_eq_of_and_eq h 11 4 (by decide)
    have hselA := extractLsb'_eq_of_and_eq h 8 3 (by decide)
    have hselB := extractLsb'_eq_of_and_eq h 5 3 (by decide)
    have hcmp := extractLsb'_eq_of_and_eq h 0 3 (by decide)
    rw [decode_of_bit15 h15 hop, decode_of_bit15 h15'.symm (hopcode ▸ hop), hselA, hselB]
    exact decodeOperation_jmp _ _ (by rw [cmpField_extract, cmpField_extract, hcmp])

/-- Settles O5: each word is evaluated by the decoder. -/
theorem tableWordsDecodeAsWritten : Obligations.TableWordsDecodeAsWritten := by
  refine ⟨?_, ?_, ?_, ?_, ?_, ?_, ?_⟩ <;> decide

/-! ## The text of a word -/

/-- A text that spells a word is the text of the word: its bits are the word's, most significant first. -/
theorem textOfWord_of_wordOfText {t : String} {w : Word} (h : wordOfText t = some w) : textOfWord w = t := by
  obtain ⟨hlen, hchars⟩ := (wordOfText_isSome t).1 (by simp [h])
  obtain ⟨bs, hbs⟩ := exists_bits_of_chars hchars
  rw [hbs, List.length_map] at hlen
  have hw : BitVec.ofNat 16 (bitsOf bs 0) = w := by
    simpa [wordOfText, hbs, hlen, bitsValue_map_bitChar] using h
  have hlt : bitsOf bs 0 < 2 ^ 16 := hlen ▸ bitsOf_lt bs
  have hbits : ((List.range 16).map fun k => w.getMsbD k) = bs := by
    refine bitsOf_injective (by simp [hlen]) ?_
    rw [bitsOf_getMsbD, ← hw, BitVec.toNat_ofNat, Nat.mod_eq_of_lt hlt]
  rw [← String.toList_inj, toList_textOfWord, hbits, hbs]

/-- Settles O6: the text of a word is read back, and a text that is read is the text of what it spells. -/
theorem wordTextRoundTrip : Obligations.WordTextRoundTrip :=
  ⟨Machine.wordOfText_textOfWord, fun _ _ => textOfWord_of_wordOfText⟩

end Sys2Proof
end

section
/-! PROOFS. The ends of an instruction, each from its own premises, in the order of the checks (40_execution_cycle.md R84 to
R90, 60_exceptions.md R208), and the statements about what raises a fault. -/

namespace Sys2Proof.Machine

/-! ## One equation for every operation, one for every JMP -/

/-- What an instruction that is no JMP writes to its destinations. A JMP has none: no statement reads its line. -/
def resultOf (s : State) : Shape → Word
  | .imm v => v.zeroExtend 16
  | .un u sa _ => unResult u (operandValue s sa)
  | .bin f sa sb _ => binResult f (operandValue s sa) (operandValue s sb)
  | .jmp _ _ _ => 0

/-- Whether an instruction divides and its divisor is zero (60_exceptions.md R206). -/
def zeroDivisor (s : State) : Shape → Bool
  | .bin f _ sb _ => divides f && decide (operandValue s sb = 0)
  | .imm _ | .un _ _ _ | .jmp _ _ _ => false

/-- All that LDI and the unary and binary operations can do. -/
theorem exec_of_not_jmp {i : Instr} (hj : ∀ c sa sb, i.shape ≠ .jmp c sa sb) (s : State) :
    exec i s =
      .next (if .reserved ∈ i.shape.sels then s.raise (illegalInstruction (encode s.params.maps i))
        else if (.m ∈ i.shape.sels ∨ i.shape.dests.m = true) ∧ ¬ s.a.toNat < s.params.memSize then
          s.raise (memoryAddress s.a)
        else if zeroDivisor s i.shape = true then s.raise (divideByZero (encode s.params.maps i))
        else (s.writeBack i.shape.dests (resultOf s i.shape)).advance) := by
  rw [exec_eq]
  cases hs : i.shape with
  | imm v => rfl
  | un u sa ds => exact unary_eq _ i sa ds s
  | bin f sa sb ds =>
    simp only [divide_eq, binary_eq, Shape.sels, Shape.dests, zeroDivisor, resultOf]
    by_cases hd : divides f = true <;> simp [hd]
  | jmp c sa sb => exact absurd hs (hj c sa sb)

/-- All that a JMP can do. -/
theorem exec_of_jmp {i : Instr} {c : Cmp} {sa sb : Sel} (hs : i.shape = .jmp c sa sb) (s : State) :
    exec i s =
      if .reserved ∈ i.shape.sels then .next (s.raise (illegalInstruction (encode s.params.maps i)))
      else if refusedByPolicy s.params c sa = true then .refused .jumpTargetPolicy
      else if .m ∈ i.shape.sels ∧ ¬ s.a.toNat < s.params.memSize then .next (s.raise (memoryAddress s.a))
      else .next (if taken s.params.cmpSigned c (operandValue s sa) (operandValue s sb) then s.jumpToA else s.advance) := by
  rw [exec_eq, hs]
  simp only [jump_eq, shape_eq_jmp hs]
  rfl

/-- An instruction is a JMP or an operation. -/
theorem Instr.jmp_or_not (i : Instr) :
    (∃ c sa sb, i.shape = .jmp c sa sb) ∨ ∀ c sa sb, i.shape ≠ .jmp c sa sb := by
  by_cases h : ∃ c sa sb, i.shape = .jmp c sa sb
  · exact .inl h
  · exact .inr fun c sa sb hs => h ⟨c, sa, sb, hs⟩

/-! ## The ends of an instruction -/

/-- The reserved selector is raised before any other check (R65, R204, R208). -/
theorem exec_of_not_wellFormed {i : Instr} {s : State} (h : ¬ i.WellFormed) :
    exec i s = .next (s.raise (illegalInstruction (encode s.params.maps i))) := by
  rw [Instr.WellFormed, not_not] at h
  obtain ⟨c, sa, sb, hs⟩ | hj := Instr.jmp_or_not i
  · rw [exec_of_jmp hs, if_pos h]
  · rw [exec_of_not_jmp hj, if_pos h]

/-- An address outside data memory is raised before the comparison and the divisor are looked at (R84, R205, R208). -/
theorem exec_of_address {i : Instr} {s : State} (hi : i.WellFormed) (hm : UsesM i) (ha : s.params.memSize ≤ s.a.toNat)
    (hp : ∀ c sa sb, i.shape = .jmp c sa sb → refusedByPolicy s.params c sa = false) :
    exec i s = .next (s.raise (memoryAddress s.a)) := by
  obtain ⟨c, sa, sb, hs⟩ | hj := Instr.jmp_or_not i
  · have hm' : .m ∈ i.shape.sels := by simpa [UsesM, hs, Shape.dests, Dests.empty] using hm
    rw [exec_of_jmp hs, if_neg hi, if_neg (by simp [hp c sa sb hs]), if_pos ⟨hm', Nat.not_lt.2 ha⟩]
  · rw [exec_of_not_jmp hj, if_neg hi, if_pos ⟨hm, Nat.not_lt.2 ha⟩]

/-- A zero divisor is raised whatever the mask (R86, R206). -/
theorem exec_of_zeroDivisor {i : Instr} {s : State} (hr : Readable s i.shape.sels i.shape.dests)
    (hz : zeroDivisor s i.shape = true) : exec i s = .next (s.raise (divideByZero (encode s.params.maps i))) := by
  obtain ⟨hsel, haddr⟩ := hr
  have hj : ∀ c sa sb, i.shape ≠ .jmp c sa sb := fun c sa sb hs => by simp [hs, zeroDivisor] at hz
  rw [exec_of_not_jmp hj, if_neg hsel, if_neg fun ⟨hm, hout⟩ => hout (haddr hm), if_pos hz]

/-- LDI, and an operation that nothing stops, writes its result back and advances (R87 to R90). -/
theorem exec_of_completes {i : Instr} {s : State} (hj : ∀ c sa sb, i.shape ≠ .jmp c sa sb)
    (hr : Readable s i.shape.sels i.shape.dests) (hz : zeroDivisor s i.shape = false) :
    exec i s = .next (s.writeBack i.shape.dests (resultOf s i.shape)).advance := by
  obtain ⟨hsel, haddr⟩ := hr
  rw [exec_of_not_jmp hj, if_neg hsel, if_neg fun ⟨hm, hout⟩ => hout (haddr hm), if_neg (by simp [hz])]

/-- A JMP that nothing stops goes to register A or to the next word (R140, R149). -/
theorem exec_jmp_of_readable {i : Instr} {c : Cmp} {sa sb : Sel} {s : State} (hs : i.shape = .jmp c sa sb)
    (hr : Readable s [sa, sb] .empty) (hp : refusedByPolicy s.params c sa = false) :
    exec i s =
      .next (if taken s.params.cmpSigned c (operandValue s sa) (operandValue s sb) then s.jumpToA else s.advance) := by
  obtain ⟨hsel, haddr⟩ := hr
  rw [exec_of_jmp hs, hs, Shape.sels, if_neg hsel, if_neg (by simp [hp]), if_neg fun ⟨hm, hout⟩ => hout (haddr (.inl hm))]

/-- JMP_TARGET_POLICY refuses no JMP by default, none whose selA is A, and none that never jumps (R149). -/
theorem refusedByPolicy_eq_false_iff (p : Params) (c : Cmp) (sa : Sel) :
    refusedByPolicy p c sa = false ↔ p.jmpTargetPolicy = .regA ∨ sa = .a ∨ c = .nv := by
  cases hp : p.jmpTargetPolicy <;> simp [refusedByPolicy, hp]
  tauto

/-! ## What raises a fault -/

/-- Settles O20: the check of the selectors comes first. -/
theorem reservedSelectorIsRaised : Obligations.ReservedSelectorIsRaised :=
  fun _ _ h => exec_of_not_wellFormed h

/-- Settles O21: under the default policy no JMP is refused ahead of the check of the address. -/
theorem addressOutsideDataMemoryIsRaised : Obligations.AddressOutsideDataMemoryIsRaised :=
  fun _ _ hi hm ha hp => exec_of_address hi hm ha fun c sa _ _ => (refusedByPolicy_eq_false_iff _ c sa).2 (.inl hp)

/-- DIV and REM are the operations that divide. -/
theorem zeroDivisor_eq_true_iff (s : State) (i : Instr) :
    zeroDivisor s i.shape = true ↔ ∃ sa sb ds, (i = .div sa sb ds ∨ i = .rem sa sb ds) ∧ operandValue s sb = 0 := by
  cases i <;> simp [Instr.shape, zeroDivisor, divides]

/-- Settles O22: both divide, so a zero divisor is raised once their operands and destinations can be reached. -/
theorem zeroDivisorIsRaised : Obligations.ZeroDivisorIsRaised := fun s sa sb ds hr hz =>
  ⟨exec_of_zeroDivisor (i := .div sa sb ds) hr ((zeroDivisor_eq_true_iff s _).2 ⟨sa, sb, ds, .inl rfl, hz⟩),
    exec_of_zeroDivisor (i := .rem sa sb ds) hr ((zeroDivisor_eq_true_iff s _).2 ⟨sa, sb, ds, .inr rfl, hz⟩)⟩

/-! ## Empty masks and the JMP that never jumps -/

/-- Such an instruction writes nothing, whatever JMP_TARGET_POLICY. -/
theorem onlyAdvances_of_shape {i : Instr}
    (h : (∃ u sa, i.shape = .un u sa .empty) ∨ (∃ f sa sb, i.shape = .bin f sa sb .empty) ∨ ∃ sa sb, i = .jmpNv sa sb) :
    i.shape.dests = .empty ∧ ∀ c sa sb, i.shape = .jmp c sa sb → c = .nv := by
  obtain ⟨u, sa, hs⟩ | ⟨f, sa, sb, hs⟩ | ⟨sa, sb, rfl⟩ := h
  · simp [hs, Shape.dests]
  · simp [hs, Shape.dests]
  · simp [Instr.shape, Shape.dests, eq_comm]

/-- An instruction with no destination that does not jump advances, if nothing is raised (R95). -/
theorem exec_of_onlyAdvances {i : Instr} {s : State} (hds : i.shape.dests = .empty)
    (hnv : ∀ c sa sb, i.shape = .jmp c sa sb → c = .nv) (hr : Readable s i.shape.sels .empty)
    (hz : zeroDivisor s i.shape = false) : exec i s = .next s.advance := by
  obtain ⟨c, sa, sb, hs⟩ | hj := Instr.jmp_or_not i
  · obtain rfl := hnv c sa sb hs
    rw [hs] at hr
    rw [exec_jmp_of_readable hs hr ((refusedByPolicy_eq_false_iff _ _ _).2 (.inr (.inr rfl)))]
    rfl
  · rw [exec_of_completes hj (hds ▸ hr) hz, hds]
    rfl

/-- Settles O18: the address is checked first, then the divisor; what is left advances. -/
theorem emptyMaskAndNeverJumpOnlyAdvance : Obligations.EmptyMaskAndNeverJumpOnlyAdvance := by
  intro i s hshape hi
  obtain ⟨hds, hnv⟩ := onlyAdvances_of_shape hshape
  have hp : ∀ c sa sb, i.shape = .jmp c sa sb → refusedByPolicy s.params c sa = false := fun c sa sb hs =>
    (refusedByPolicy_eq_false_iff _ _ _).2 (.inr (.inr (hnv c sa sb hs)))
  refine ⟨fun hm ha => exec_of_address hi (.inl hm) ha hp, fun hr => ⟨?_, fun hz => ?_⟩⟩
  · rintro ⟨sa, sb, hdiv, hz⟩
    exact exec_of_zeroDivisor (hds ▸ hr) ((zeroDivisor_eq_true_iff s i).2 ⟨sa, sb, _, hdiv, hz⟩)
  · refine exec_of_onlyAdvances hds hnv hr (Bool.eq_false_iff.2 fun h => ?_)
    obtain ⟨sa, sb, ds, hdiv, hzero⟩ := (zeroDivisor_eq_true_iff s i).1 h
    obtain rfl : ds = .empty := by obtain rfl | rfl := hdiv <;> exact hds
    exact hz sa sb hdiv hzero

end Sys2Proof.Machine
end

section
/-! PROOFS. The operations complete with the results of 42_unary.md and 43_binary.md. -/

namespace Sys2Proof.Machine

/-! ## Results as numbers -/

/-- The signed reading of a word is its two's complement one (00_scope.md R8). -/
theorem signed_eq_toInt (v : Word) : signed v = v.toInt := by
  rw [signed, BitVec.toInt_eq_toNat_cond]
  split_ifs <;> omega

theorem notResult_toNat (x : Word) : (notResult x).toNat = 65535 - x.toNat := by
  rw [notResult, BitVec.toNat_not]

theorem wrap16_toNat (z : Int) : (wrap16 z).toNat = (z % 65536).toNat := BitVec.toNat_ofInt z

theorem negResult_toNat (x : Word) : (negResult x).toNat = (65536 - x.toNat) % 65536 := by
  have := x.isLt
  rw [negResult, wrap16_toNat]
  omega

theorem addResult_toNat (x y : Word) : (addResult x y).toNat = (x.toNat + y.toNat) % 65536 := by
  rw [addResult, wrap16_toNat]
  omega

theorem subResult_toNat (x y : Word) : (subResult x y).toNat = (65536 + x.toNat - y.toNat) % 65536 := by
  have := y.isLt
  rw [subResult, wrap16_toNat]
  omega

theorem mulResult_toNat (x y : Word) : (mulResult x y).toNat = x.toNat * y.toNat % 65536 := by
  rw [mulResult, wrap16_toNat, ← Int.natCast_mul]
  omega

theorem andResult_getLsbD (x y : Word) (k : Nat) : (andResult x y).getLsbD k = (x.getLsbD k && y.getLsbD k) :=
  BitVec.getLsbD_and

theorem orResult_getLsbD (x y : Word) (k : Nat) : (orResult x y).getLsbD k = (x.getLsbD k || y.getLsbD k) :=
  BitVec.getLsbD_or

theorem xorResult_getLsbD (x y : Word) (k : Nat) : (xorResult x y).getLsbD k = (x.getLsbD k ^^ y.getLsbD k) :=
  BitVec.getLsbD_xor

/-! ## Floor division -/

/-- A number in the signed range is the signed reading of its word. -/
theorem toInt_ofInt_of_range {z : Int} (hlo : -32768 ≤ z) (hhi : z < 32768) : (BitVec.ofInt 16 z).toInt = z :=
  BitVec.toInt_ofInt_eq_self (by decide) hlo hhi

theorem divResult_eq (x y : Word) : divResult x y = BitVec.ofInt 16 (x.toInt.fdiv y.toInt) := by
  rw [divResult, signed_eq_toInt, signed_eq_toInt, wrap16]

theorem remResult_eq (x y : Word) : remResult x y = BitVec.ofInt 16 (x.toInt.fmod y.toInt) := by
  rw [remResult, signed_eq_toInt, signed_eq_toInt, wrap16, Int.fmod_def]

/-- The remainder of floor division lies between zero and the divisor. -/
theorem fmod_between (a : Int) {b : Int} (hb : b ≠ 0) : 0 ≤ a.fmod b ∧ a.fmod b < b ∨ b < a.fmod b ∧ a.fmod b ≤ 0 := by
  rcases Int.lt_or_gt_of_ne hb with h | h
  · have hneg := Int.neg_fmod_neg a b
    have hnonneg := Int.fmod_nonneg_of_pos (-a) (b := -b) (by omega)
    have hlt := Int.fmod_lt_of_pos (-a) (b := -b) (by omega)
    exact .inr (by omega)
  · exact .inl ⟨Int.fmod_nonneg_of_pos a h, Int.fmod_lt_of_pos a h⟩

theorem toInt_ne_zero {y : Word} (hy : y ≠ 0) : y.toInt ≠ 0 := fun h => hy (BitVec.eq_of_toInt_eq h)

/-- The signed readings of a word. -/
theorem toInt_range (x : Word) : -32768 ≤ x.toInt ∧ x.toInt < 32768 := ⟨BitVec.le_toInt x, BitVec.toInt_lt⟩

/-- The remainder is in the signed range, so it is read back exactly. -/
theorem remResult_toInt (x : Word) {y : Word} (hy : y ≠ 0) : (remResult x y).toInt = x.toInt.fmod y.toInt := by
  have hy_range := toInt_range y
  have hr := fmod_between x.toInt (toInt_ne_zero hy)
  rw [remResult_eq, toInt_ofInt_of_range (by omega) (by omega)]

/-- The floor quotient is in the signed range but for -32768 by -1 (D11), so it is read back exactly. -/
theorem divResult_toInt {x y : Word} (h : x.toInt.fdiv y.toInt ≠ 32768) : (divResult x y).toInt = x.toInt.fdiv y.toInt := by
  have hx_range := toInt_range x
  have hq := Int.natAbs_fdiv_le_natAbs x.toInt y.toInt
  rw [divResult_eq, toInt_ofInt_of_range (by omega) (by omega)]

/-! ## Completion -/

/-- An operation that nothing stops completes with its result. -/
theorem exec_completes {i : Instr} {s : State} (hj : ∀ c sa sb, i.shape ≠ .jmp c sa sb) (hwf : s.mem.WellFormed)
    (hr : Readable s i.shape.sels i.shape.dests) (hz : zeroDivisor s i.shape = false) :
    ∃ t, exec i s = .next t ∧ Completes s t i.shape.dests (resultOf s i.shape) :=
  ⟨_, exec_of_completes hj hr hz, completes_writeBack_advance s _ _ hwf⟩

theorem exec_un_completes (u : UnOp) {s : State} {sa : Sel} {ds : Dests} (hwf : s.mem.WellFormed)
    (hr : Readable s [sa] ds) :
    ∃ t, exec (u.instr sa ds) s = .next t ∧ Completes s t ds (unResult u (operandValue s sa)) := by
  have h := exec_completes (i := u.instr sa ds) (s := s)
  rw [UnOp.instr_shape] at h
  exact h (by simp) hwf hr rfl

theorem exec_bin_completes (f : BinOp) {s : State} {sa sb : Sel} {ds : Dests} (hwf : s.mem.WellFormed)
    (hr : Readable s [sa, sb] ds) (hz : divides f = true → operandValue s sb ≠ 0) :
    ∃ t, exec (f.instr sa sb ds) s = .next t ∧
      Completes s t ds (binResult f (operandValue s sa) (operandValue s sb)) := by
  have h := exec_completes (i := f.instr sa sb ds) (s := s)
  rw [BinOp.instr_shape] at h
  exact h (by simp) hwf hr (by simpa [zeroDivisor] using hz)

/-- Settles O8: the result of COPY is its operand. -/
theorem copyCompletesWithItsOperand : Obligations.CopyCompletesWithItsOperand :=
  fun _ _ _ hwf hr => exec_copy_completes hwf hr

/-- Settles O9: the results of NOT and NEG as numbers. -/
theorem notAndNegComplete : Obligations.NotAndNegComplete := by
  intro s sa ds hwf hr
  obtain ⟨t, ht, hdone⟩ := exec_un_completes .not hwf hr
  obtain ⟨t', ht', hdone'⟩ := exec_un_completes .neg hwf hr
  exact ⟨⟨t, _, ht, hdone, notResult_toNat _⟩, t', _, ht', hdone', negResult_toNat _⟩

/-- Settles O10: the results of AND, OR and XOR bit by bit. -/
theorem bitwiseOperationsComplete : Obligations.BitwiseOperationsComplete := by
  intro s sa sb ds hwf hr
  obtain ⟨t, ht, hdone⟩ := exec_bin_completes .and hwf hr nofun
  obtain ⟨t', ht', hdone'⟩ := exec_bin_completes .or hwf hr nofun
  obtain ⟨t'', ht'', hdone''⟩ := exec_bin_completes .xor hwf hr nofun
  exact ⟨⟨t, _, ht, hdone, andResult_getLsbD _ _⟩, ⟨t', _, ht', hdone', orResult_getLsbD _ _⟩,
    t'', _, ht'', hdone'', xorResult_getLsbD _ _⟩

/-- Settles O11: the results of ADD, SUB and MUL as numbers. -/
theorem wrappingArithmeticCompletes : Obligations.WrappingArithmeticCompletes := by
  intro s sa sb ds hwf hr
  obtain ⟨t, ht, hdone⟩ := exec_bin_completes .add hwf hr nofun
  obtain ⟨t', ht', hdone'⟩ := exec_bin_completes .sub hwf hr nofun
  obtain ⟨t'', ht'', hdone''⟩ := exec_bin_completes .mul hwf hr nofun
  exact ⟨⟨t, _, ht, hdone, addResult_toNat _ _⟩, ⟨t', _, ht', hdone', subResult_toNat _ _⟩,
    t'', _, ht'', hdone'', mulResult_toNat _ _⟩

/-- Settles O12: the quotient and the remainder are those of floor division on the signed readings. -/
theorem floorDivisionCompletes : Obligations.FloorDivisionCompletes := by
  intro s sa sb ds hwf hr hz
  obtain ⟨t, ht, hdone⟩ := exec_bin_completes .div hwf hr fun _ => hz
  obtain ⟨t', ht', hdone'⟩ := exec_bin_completes .rem hwf hr fun _ => hz
  exact ⟨_, _, (Int.mul_fdiv_add_fmod _ _).symm, fmod_between _ (toInt_ne_zero hz),
    ⟨t, _, ht, hdone, divResult_eq _ _, divResult_toInt⟩, t', _, ht', hdone', remResult_toInt _ hz⟩

/-! ## Two instructions in turn -/

/-- Settles O37: the cell that the first COPY writes is the one the second reads, since A has not changed. -/
theorem storedValueIsReadBack : Obligations.StoredValueIsReadBack := by
  intro s sa hwf hsa ha
  obtain ⟨t, ht, hdone⟩ := exec_copy_completes (ds := { Dests.empty with m := true }) hwf ⟨by simpa using hsa, fun _ => ha⟩
  have hA : t.a = s.a := hdone.a
  have hcell : t.mem.read t.a.toNat = operandValue s sa := by simpa [hA] using hdone.cell s.a.toNat
  have hread := exec_of_completes (i := .copy .m { Dests.empty with d := true }) (s := t) (by simp [Instr.shape])
    ⟨by decide, fun _ => by rwa [hA, hdone.params]⟩ rfl
  exact ⟨t, _, ht, hread, hcell⟩

end Sys2Proof.Machine
end

section
/-! PROOFS. The JMP forms (44_jump.md): the conditions, the target, and the words that the target policy refuses. -/

namespace Sys2Proof.Machine

/-! ## Conditions -/

/-- The signed order of JMP is that of two's complement words. -/
theorem reading_lt (cs : Bool) (x y : Word) :
    decide (reading cs x < reading cs y) = if cs then x.slt y else x.ult y := by
  cases cs <;> simp [reading, signed_eq_toInt, BitVec.slt, BitVec.ult]

theorem reading_le (cs : Bool) (x y : Word) :
    decide (reading cs x ≤ reading cs y) = if cs then x.sle y else x.ule y := by
  cases cs <;> simp [reading, signed_eq_toInt, BitVec.sle, BitVec.ule]

/-- The four ordering comparisons are the two orders and their complements (R143, R144, R147, R148). -/
theorem taken_lt (cs : Bool) (x y : Word) : taken cs .lt x y = if cs then x.slt y else x.ult y := reading_lt cs x y

theorem taken_le (cs : Bool) (x y : Word) : taken cs .le x y = if cs then x.sle y else x.ule y := reading_le cs x y

theorem taken_ge (cs : Bool) (x y : Word) : taken cs .ge x y = !taken cs .lt x y := by
  simp [taken, ← decide_not]

theorem taken_gt (cs : Bool) (x y : Word) : taken cs .gt x y = !taken cs .le x y := by
  simp [taken, ← decide_not]

/-- Less than or equal is less than, or equal: a word has one signed reading and no two words share one. -/
theorem sle_eq_slt_or_eq (x y : Word) : x.sle y = (x == y || x.slt y) := by
  rw [Bool.eq_iff_iff]
  simp only [BitVec.sle, BitVec.slt, Bool.or_eq_true, beq_iff_eq, decide_eq_true_eq, ← BitVec.toInt_inj]
  omega

/-- Settles O17: each code's bits, and the inverted codes as the complements of the others. -/
theorem comparisonCodeBitsGiveTheCondition : Obligations.ComparisonCodeBitsGiveTheCondition := by
  intro c x y
  cases c with
  | nv => rfl
  | eq => simp [taken, beq_eq_decide, CmpMap.default, CmpMap.code]
  | lt => simp [taken_lt, CmpMap.default, CmpMap.code]
  | le => simp [taken_le, sle_eq_slt_or_eq, CmpMap.default, CmpMap.code]
  | al => rfl
  | ne => simp [taken, beq_eq_decide, CmpMap.default, CmpMap.code]
  | ge => simp [taken_ge, taken_lt, CmpMap.default, CmpMap.code]
  | gt => simp [taken_gt, taken_le, sle_eq_slt_or_eq, CmpMap.default, CmpMap.code]

/-! ## Targets -/

/-- The state after a JMP: pc is register A or the next word, one step is counted (R89, R90, R149). -/
theorem jump_target (s : State) (cond : Bool) :
    (if cond then s.jumpToA else s.advance) = { s with pc := if cond then s.a else s.pc + 1, steps := s.steps + 1 } := by
  cases cond <;> rfl

/-- A JMP that is not refused and whose operands can be read. -/
theorem exec_jmp_eq {c : Cmp} {sa sb : Sel} {s : State} {cond : Bool} (hr : Readable s [sa, sb] .empty)
    (hp : s.params.jmpTargetPolicy = .regA ∨ sa = .a ∨ c = .nv)
    (hc : taken s.params.cmpSigned c (operandValue s sa) (operandValue s sb) = cond) :
    exec (c.instr sa sb) s = .next { s with pc := if cond then s.a else s.pc + 1, steps := s.steps + 1 } := by
  rw [exec_jmp_of_readable (Cmp.instr_shape c sa sb) hr ((refusedByPolicy_eq_false_iff _ _ _).2 hp), hc, jump_target]

/-- Settles O13: equality of the operands is the condition of EQ, and its complement that of NE. -/
theorem jmpEqAndNeComplete : Obligations.JmpEqAndNeComplete := by
  intro s sa sb hr hp
  have hp' : ∀ c : Cmp, s.params.jmpTargetPolicy = .regA ∨ sa = .a ∨ c = .nv := fun _ => hp.imp_right .inl
  have heq := exec_jmp_eq (c := .eq) hr (hp' _) rfl
  have hne := exec_jmp_eq (c := .ne) hr (hp' _) rfl
  simp only [taken, decide_not, Bool.not_eq_true', decide_eq_false_iff_not, decide_eq_true_eq, ite_not] at heq hne
  exact ⟨heq, hne⟩

/-- Settles O14: the conditions of the four ordering JMPs are the two orders and their complements. -/
theorem orderingJmpsComplete : Obligations.OrderingJmpsComplete := by
  rintro s sa sb x y hr hp rfl rfl lt le hlt hle
  rw [← taken_lt] at hlt
  rw [← taken_le] at hle
  have hp' : ∀ c : Cmp, s.params.jmpTargetPolicy = .regA ∨ sa = .a ∨ c = .nv := fun _ => hp.imp_right .inl
  have hge := exec_jmp_eq (c := .ge) (cond := !lt) hr (hp' _) (by rw [taken_ge, ← hlt])
  have hgt := exec_jmp_eq (c := .gt) (cond := !le) hr (hp' _) (by rw [taken_gt, ← hle])
  simp only [Bool.not_eq_true', ← Bool.not_eq_true, ite_not] at hge hgt
  exact ⟨exec_jmp_eq (c := .lt) hr (hp' _) hlt.symm, exec_jmp_eq (c := .le) hr (hp' _) hle.symm, hge, hgt⟩

/-- Settles O15: the policy refuses no JMP that never jumps. -/
theorem neverAndAlwaysJmpComplete : Obligations.NeverAndAlwaysJmpComplete := fun _ _ _ hr =>
  ⟨exec_jmp_eq (c := .nv) hr (.inr (.inr rfl)) rfl, fun hp => exec_jmp_eq (c := .al) hr (hp.imp_right .inl) rfl⟩

/-- Settles O16: the refusal is decided by the policy, selA and the comparison alone. -/
theorem targetPolicyRefusesOnlyDifferingJmps : Obligations.TargetPolicyRefusesOnlyDifferingJmps := by
  intro c s sa sb hpol hsel
  have hrefused : refusedByPolicy s.params c sa = true ↔ sa ≠ .a ∧ c ≠ .nv := by simp [refusedByPolicy, hpol]
  rw [exec_of_jmp (Cmp.instr_shape c sa sb), Cmp.instr_shape, Shape.sels, if_neg hsel, ← hrefused]
  split_ifs with hp <;> simp [hp]

end Sys2Proof.Machine
end

section
/-! PROOFS. Frames: what an instruction leaves unchanged, and what it does not depend on (10_state.md R10 to R14,
40_execution_cycle.md R88). -/

namespace Sys2Proof.Machine

/-! ## What an instruction leaves unchanged -/

/-- An instruction answers with a raise, with an operation's write-back, or at the target of a JMP. -/
theorem exec_ends {i : Instr} {s t : State} (h : exec i s = .next t) :
    (∃ r, t = s.raise r) ∨ (∃ r, t = (s.writeBack i.shape.dests r).advance) ∨
      (i.shape.dests = .empty ∧ (t = s.jumpToA ∨ t = s.advance)) := by
  obtain ⟨-, rfl⟩ | ⟨-, -, -, rfl⟩ | ⟨-, -, -, -, -, -, -, -, rfl⟩ | ⟨-, -, r, rfl⟩ | ⟨c, sa, sb, hs, -, -, rfl⟩ :=
    exec_cases h
  · exact .inl ⟨_, rfl⟩
  · exact .inl ⟨_, rfl⟩
  · exact .inl ⟨_, rfl⟩
  · exact .inr (.inl ⟨r, rfl⟩)
  · refine .inr (.inr ⟨by rw [hs, Shape.dests], ?_⟩)
    split_ifs
    exacts [.inl rfl, .inr rfl]

theorem State.writeBack_reg {s : State} {ds : Dests} {r : Reg} (x : Word) (h : destReg ds r = false) :
    (s.writeBack ds x).reg r = s.reg r := by
  cases r <;> simp_all [State.reg, destReg]

theorem State.writeBack_read_other {s : State} {ds : Dests} {k : Nat} (x : Word)
    (h : ds.m = true → k ≠ s.a.toNat) : (s.writeBack ds x).mem.read k = s.mem.read k := by
  rw [State.writeBack_mem]
  split_ifs with hm
  · exact Memory.read_write_other _ _ (h hm)
  · rfl

@[simp] theorem State.advance_reg (s : State) (r : Reg) : s.advance.reg r = s.reg r := by cases r <;> rfl

@[simp] theorem State.jumpToA_reg (s : State) (r : Reg) : s.jumpToA.reg r = s.reg r := by cases r <;> rfl

@[simp] theorem State.raise_reg (s : State) (f : Raised) (r : Reg) : (s.raise f).reg r = s.reg r := by cases r <;> rfl

/-- Settles O24: a raise changes the status alone, the write-back the destinations, a JMP none. -/
theorem instructionsChangeOnlyTheirDestinations : Obligations.InstructionsChangeOnlyTheirDestinations := by
  intro i s t h
  obtain ⟨f, rfl⟩ | ⟨x, rfl⟩ | ⟨-, rfl | rfl⟩ := exec_ends h
  · exact ⟨fun r _ => s.raise_reg f r, fun _ _ => rfl, rfl, rfl, .inr rfl⟩
  · exact ⟨fun r hr => (State.advance_reg _ r).trans (State.writeBack_reg x hr),
      fun k hk => State.writeBack_read_other x hk, rfl, rfl, .inl rfl⟩
  · exact ⟨fun r _ => s.jumpToA_reg r, fun _ _ => rfl, rfl, rfl, .inl rfl⟩
  · exact ⟨fun r _ => s.advance_reg r, fun _ _ => rfl, rfl, rfl, .inl rfl⟩

/-- Settles O19: A and the cell at the old A both receive the result of the write-back. -/
theorem storeGoesToTheOldAddress : Obligations.StoreGoesToTheOldAddress := by
  intro i s t hwf _ hda hdm h hrun
  obtain ⟨f, rfl⟩ | ⟨x, rfl⟩ | ⟨hempty, -⟩ := exec_ends h
  · exact absurd hrun (s.raise_status_ne_running f)
  · have hdone := completes_writeBack_advance s i.shape.dests x hwf
    refine ⟨?_, fun k hk => ?_⟩
    · rw [hdone.cell, if_pos ⟨hdm, rfl⟩, hdone.a, if_pos hda]
    · rw [hdone.cell, if_neg fun ⟨_, he⟩ => hk he]
  · rw [hempty] at hda
    cases hda

/-! ## What an instruction does not depend on -/

section SetReg

variable (s : State) (v : Word) {r : Reg}

@[simp] theorem State.setReg_params : (s.setReg v r).params = s.params := by cases r <;> rfl

theorem State.setReg_a (hr : r ≠ .a) : (s.setReg v r).a = s.a := by
  cases r with
  | a => exact absurd rfl hr
  | b | c | d => rfl

/-- An operand keeps its value when a register that it does not name takes another; M goes by A alone. -/
theorem operandValue_setReg (hr : r ≠ .a) {x : Sel} (hx : regSel r ≠ x) :
    operandValue (s.setReg v r) x = operandValue s x := by
  cases r with
  | a => exact absurd rfl hr
  | b | c | d => cases x <;> simp_all [operandValue, State.setReg, regSel]

theorem State.writeBack_setReg (hr : r ≠ .a) (ds : Dests) (x : Word) :
    (s.setReg v r).writeBack ds x = if destReg ds r then s.writeBack ds x else (s.writeBack ds x).setReg v r := by
  cases r with
  | a => exact absurd rfl hr
  | b | c | d => simp only [destReg]; split_ifs with hd <;> simp [State.writeBack, State.setReg, hd]

theorem State.advance_setReg : (s.setReg v r).advance = s.advance.setReg v r := by cases r <;> rfl

theorem State.jumpToA_setReg (hr : r ≠ .a) : (s.setReg v r).jumpToA = s.jumpToA.setReg v r := by
  cases r with
  | a => exact absurd rfl hr
  | b | c | d => rfl

theorem readable_setReg (hr : r ≠ .a) {sels : List Sel} {ds : Dests} (h : Readable s sels ds) :
    Readable (s.setReg v r) sels ds := by
  rwa [Readable, State.setReg_a s v hr, State.setReg_params]

theorem resultOf_setReg (hr : r ≠ .a) {sh : Shape} (hx : regSel r ∉ sh.sels) :
    resultOf (s.setReg v r) sh = resultOf s sh := by
  cases sh <;> simp only [Shape.sels, List.mem_cons, List.not_mem_nil, or_false, not_or] at hx <;>
    simp [resultOf, operandValue_setReg s v hr, hx]

theorem zeroDivisor_setReg (hr : r ≠ .a) {sh : Shape} (hx : regSel r ∉ sh.sels) :
    zeroDivisor (s.setReg v r) sh = zeroDivisor s sh := by
  cases sh <;> simp only [Shape.sels, List.mem_cons, List.not_mem_nil, or_false, not_or] at hx <;>
    simp [zeroDivisor, operandValue_setReg s v hr, hx]

end SetReg

theorem destReg_empty (r : Reg) : destReg .empty r = false := by cases r <;> rfl

/-- An operation that completes had no zero divisor. -/
theorem zeroDivisor_of_running {i : Instr} {s t : State} (hr : Readable s i.shape.sels i.shape.dests)
    (h : exec i s = .next t) (hrun : t.status = .running) : zeroDivisor s i.shape = false := by
  by_contra hz
  rw [exec_of_zeroDivisor hr (Bool.not_eq_false _ ▸ hz)] at h
  cases h
  exact s.raise_status_ne_running _ hrun

/-- Settles O28: the checks, the result, the condition and the target read A and the operands alone. -/
theorem unnamedRegistersPlayNoPart : Obligations.UnnamedRegistersPlayNoPart := by
  intro i s t r v hr hx _ h hrun
  obtain ⟨hj, hread, -⟩ | ⟨c, sa, sb, hs, hread, hp, rfl⟩ := exec_completed_cases h hrun
  · have hz := zeroDivisor_of_running hread h hrun
    rw [exec_of_completes hj hread hz] at h
    cases h
    rw [exec_of_completes hj (readable_setReg s v hr hread) (by rwa [zeroDivisor_setReg s v hr hx]),
      resultOf_setReg s v hr hx, State.writeBack_setReg s v hr]
    split_ifs
    · rfl
    · rw [State.advance_setReg]
  · rw [hs] at hread hx ⊢
    have hxa : regSel r ≠ sa := by rintro rfl; simp [Shape.sels] at hx
    have hxb : regSel r ≠ sb := by rintro rfl; simp [Shape.sels] at hx
    rw [exec_jmp_of_readable hs (readable_setReg s v hr hread) (by rwa [State.setReg_params]),
      operandValue_setReg s v hr hxa, operandValue_setReg s v hr hxb, State.setReg_params,
      State.jumpToA_setReg s v hr, State.advance_setReg]
    simp only [Shape.dests, destReg_empty, Bool.false_eq_true, if_false]
    split_ifs <;> rfl

end Sys2Proof.Machine
end

section
/-! PROOFS. One step of the machine (40_execution_cycle.md R80 to R92). -/

namespace Sys2Proof.Machine

/-! ## The three cases of a step -/

theorem step_of_halted {s : State} (h : s.halted = true) : step s = .next s := by
  rw [step, if_pos h]

theorem step_of_decode_error {s : State} {w : Word} {e : DecodeError} (h : s.halted = false) (hw : s.fetch = some w)
    (hd : decode s.params.maps w = .error e) : step s = .next (s.raise (illegalInstruction w)) := by
  simp [step, h, hw, hd]

theorem step_of_decode_ok {s : State} {w : Word} {i : Instr} (h : s.halted = false) (hw : s.fetch = some w)
    (hd : decode s.params.maps w = .ok i) : step s = exec i s := by
  simp [step, h, hw, hd]

theorem State.halted_eq_true_iff (s : State) :
    s.halted = true ↔ s.status ≠ .running ∨ s.prog.length ≤ s.pc.toNat ∨ s.params.stepLimit ≤ s.steps := by
  rw [← not_iff_not, Bool.not_eq_true, State.halted_eq_false_iff]
  push Not
  rfl

/-- Settles O23: a running machine that fetches such a word raises. -/
theorem illegalWordIsRaised : Obligations.IllegalWordIsRaised :=
  fun _ _ _ h hw hd => step_of_decode_error h hw hd

/-- Settles O29: the halt check comes before the fetch. -/
theorem haltedMachineStaysAsItIs : Obligations.HaltedMachineStaysAsItIs := by
  intro s h
  have hhalt := (s.halted_eq_true_iff).2 h
  have hstep := step_of_halted hhalt
  exact ⟨hstep, by simp [stepReturns, hstep, hhalt]⟩

/-- Settles O30: past the halt check and the decoder nothing is added. -/
theorem stepRunsTheDecodedInstruction : Obligations.StepRunsTheDecodedInstruction := by
  intro s w i hrun hcap hw hd
  have hpc : s.pc.toNat < s.prog.length := (List.getElem?_eq_some_iff.1 hw).1
  exact step_of_decode_ok ((s.halted_eq_false_iff).2 ⟨hrun, hpc, hcap⟩) hw hd

/-! ## What every step keeps -/

theorem exec_keeps_prog_params {i : Instr} {s t : State} (h : exec i s = .next t) : t.prog = s.prog ∧ t.params = s.params := by
  obtain ⟨f, rfl⟩ | ⟨x, rfl⟩ | ⟨-, rfl | rfl⟩ := exec_ends h <;> exact ⟨rfl, rfl⟩

/-- Settles O25: no end of an instruction writes program memory or the parameters. -/
theorem stepKeepsProgramAndParameters : Obligations.StepKeepsProgramAndParameters := by
  intro s t h
  obtain ⟨-, rfl⟩ | ⟨w, e, -, -, -, rfl⟩ | ⟨w, i, -, -, -, h⟩ := step_cases h
  · exact ⟨rfl, rfl⟩
  · exact ⟨rfl, rfl⟩
  · exact exec_keeps_prog_params h

/-- An instruction run by a running machine is counted, or raises. -/
theorem exec_completes_or_raises {i : Instr} {s t : State} (hrun : s.status = .running) (h : exec i s = .next t) :
    t.steps = s.steps + 1 ∧ t.status = .running ∨ ∃ f, t = s.raise f := by
  obtain ⟨f, rfl⟩ | ⟨x, rfl⟩ | ⟨-, rfl | rfl⟩ := exec_ends h
  · exact .inr ⟨f, rfl⟩
  all_goals exact .inl ⟨rfl, hrun⟩

/-- A step of a machine that is not halted is counted, or raises. -/
theorem step_completes_or_raises {s t : State} (hs : s.halted = false) (h : step s = .next t) :
    t.steps = s.steps + 1 ∧ t.status = .running ∨ ∃ f, t = s.raise f := by
  obtain ⟨hh, -⟩ | ⟨w, e, -, -, -, rfl⟩ | ⟨w, i, -, -, -, h⟩ := step_cases h
  · rw [hs] at hh
    cases hh
  · exact .inr ⟨_, rfl⟩
  · exact exec_completes_or_raises ((s.halted_eq_false_iff).1 hs).1 h

/-- Settles O26: a raise changes the status, and the status alone. -/
theorem stepCompletesOrRaises : Obligations.StepCompletesOrRaises := by
  intro s t hs h
  obtain hdone | ⟨f, rfl⟩ := step_completes_or_raises hs h
  · exact .inl hdone
  · exact .inr ⟨s.raise_status_ne_running f, rfl⟩

/-! ## A step answers a next state -/

/-- An instruction answers a next state or is refused by the target policy. -/
theorem exec_next_or_refused (i : Instr) (s : State) :
    (∃ t, exec i s = .next t) ∨ exec i s = .refused .jumpTargetPolicy ∧ s.params.jmpTargetPolicy = .refuseIfDiffers := by
  obtain ⟨c, sa, sb, hs⟩ | hj := Instr.jmp_or_not i
  · rw [exec_of_jmp hs]
    split_ifs with hsel hp
    · exact .inl ⟨_, rfl⟩
    · refine .inr ⟨rfl, ?_⟩
      cases hpol : s.params.jmpTargetPolicy with
      | regA => simp [refusedByPolicy, hpol] at hp
      | refuseIfDiffers => rfl
    all_goals exact .inl ⟨_, rfl⟩
  · exact .inl ⟨_, exec_of_not_jmp hj s⟩

/-- A step answers a next state or is refused by the target policy. -/
theorem step_next_or_refused (s : State) :
    (∃ t, step s = .next t) ∨ step s = .refused .jumpTargetPolicy ∧ s.params.jmpTargetPolicy = .refuseIfDiffers := by
  cases hh : s.halted with
  | true => exact .inl ⟨s, step_of_halted hh⟩
  | false =>
    obtain ⟨w, hw⟩ := s.fetch_isSome_of_running hh
    cases hd : decode s.params.maps w with
    | error e => exact .inl ⟨_, step_of_decode_error hh hw hd⟩
    | ok i => simpa only [step_of_decode_ok hh hw hd] using exec_next_or_refused i s

/-- Settles O31: the fetch of a machine that is not halted finds a word, and only the target policy refuses. -/
theorem stepAnswersANextState : Obligations.StepAnswersANextState := by
  refine ⟨fun s r h => ?_, fun s r h => ?_⟩
  · obtain ⟨t, ht⟩ | ⟨ht, -⟩ := step_next_or_refused s <;> simp [ht] at h
  · obtain ⟨t, ht⟩ | ⟨-, hpol⟩ := step_next_or_refused s
    · simp [ht] at h
    · exact hpol

end Sys2Proof.Machine
end

section
/-! PROOFS. The invariant: it holds at reset and after every accepted load, and every step keeps it (10_state.md sections 2,
4, 6 and 8). -/

namespace Sys2Proof.Machine

/-! ## Where the invariant starts -/

/-- What load leaves meets the invariant under parameters the spec allows. -/
theorem freshState_invariant {p : Params} {prog : List Word} (hp : ParamsWellFormed p) (hlen : prog.length ≤ p.progMax) :
    Invariant (freshState p prog) where
  params := hp
  progFits := hlen
  memCanonical := Memory.writeAll_wellFormed _ _ Memory.nil_wellFormed
  memInRange cell hcell := by
    obtain ⟨-, -, hinit⟩ := hp
    obtain h | h := Memory.mem_writeAll hcell
    · exact hinit cell h
    · cases h
  stepsWithinCap := Nat.zero_le _
  faultRecorded := trivial

theorem defaultParams_wellFormed : ParamsWellFormed defaultParams := by decide

/-- The reset state is the fresh state of the empty program. -/
theorem reset_eq_freshState : State.reset = freshState defaultParams [] := rfl

/-- Settles O33: reset is a fresh state of allowed parameters. -/
theorem resetMeetsTheInvariant : Obligations.ResetMeetsTheInvariant := by
  rw [Obligations.ResetMeetsTheInvariant, reset_eq_freshState]
  exact freshState_invariant defaultParams_wellFormed (Nat.zero_le _)

/-- An accepted load leaves the fresh state of the words its texts spell. -/
theorem load_eq_ok {s t : State} {program : List String} (h : load s program = .ok t) :
    ∃ words, wordsOfTexts program = some words ∧ words.length ≤ s.params.progMax ∧ t = freshState s.params words := by
  cases hw : wordsOfTexts program with
  | none => simp [load_of_malformed s hw] at h
  | some words =>
    rw [load_of_words s hw] at h
    split_ifs at h with hlen
    cases h
    exact ⟨words, rfl, hlen, rfl⟩

/-- Settles O34: an accepted load leaves a fresh state that fits. -/
theorem loadMeetsTheInvariant : Obligations.LoadMeetsTheInvariant := by
  intro s t program hp h
  obtain ⟨words, -, hlen, rfl⟩ := load_eq_ok h
  exact freshState_invariant hp hlen

/-- Settles O35: pc is an index into a program of at most 32768 words. -/
theorem pcIncrementDoesNotWrap : Obligations.PcIncrementDoesNotWrap := by
  intro s hinv hs
  obtain ⟨-, hpc, -⟩ := (s.halted_eq_false_iff).1 hs
  obtain ⟨-, hmax, -⟩ := hinv.params
  have hlen := hinv.progFits
  have hone : (1 : Word).toNat = 1 := rfl
  rw [BitVec.toNat_add, hone]
  omega

/-! ## What keeps it -/

/-- A raise that records what it should keeps the invariant: it changes nothing else. -/
theorem raise_invariant {s : State} {r : Raised} (hinv : Invariant s) (hr : FaultRecorded (s.raise r)) :
    Invariant (s.raise r) where
  params := hinv.params
  progFits := hinv.progFits
  memCanonical := hinv.memCanonical
  memInRange := hinv.memInRange
  stepsWithinCap := hinv.stepsWithinCap
  faultRecorded := hr

theorem faultRecorded_of_running {s : State} (h : s.status = .running) : FaultRecorded s := by
  simp [FaultRecorded, h]

/-- IllegalInstruction records the word at pc, which does not decode (60_exceptions.md R204). -/
theorem faultRecorded_illegalInstruction {s : State} {w : Word} {e : DecodeError} (hw : s.fetch = some w)
    (hd : decode s.params.maps w = .error e) : FaultRecorded (s.raise (illegalInstruction w)) :=
  ⟨hw, fun i hi => by cases hd.symm.trans hi⟩

/-- MemoryAddress records the address in register A (60_exceptions.md R205). -/
theorem faultRecorded_memoryAddress {s : State} {w : Word} (hw : s.fetch = some w) (ha : s.params.memSize ≤ s.a.toNat) :
    FaultRecorded (s.raise (memoryAddress s.a)) :=
  ⟨Option.isSome_iff_exists.2 ⟨w, hw⟩, rfl, ha⟩

/-- DivideByZero records the word at pc: a DIV or REM word has no ignored field, so it is what its instruction encodes to
(60_exceptions.md R206; log 5). -/
theorem faultRecorded_divideByZero {s : State} {w : Word} {i : Instr} (hmp : s.params.maps.WellFormed)
    (hw : s.fetch = some w) (hd : decode s.params.maps w = .ok i) (hz : zeroDivisor s i.shape = true) :
    FaultRecorded (s.raise (divideByZero (encode s.params.maps i))) := by
  obtain ⟨sa, sb, ds, hi, -⟩ := (zeroDivisor_eq_true_iff s i).1 hz
  have hword : encode s.params.maps i = w := by
    rw [encodeOfDecodeClearsIgnoredFields _ w i hmp hd]
    obtain rfl | rfl := hi <;> rfl
  refine hword ▸ ⟨hw, sa, sb, ds, ?_⟩
  obtain rfl | rfl := hi
  exacts [.inl hd, .inr hd]

/-- A write of a result keeps the invariant where the cell it stores to is one data memory has, and counting it stays within
the cap. -/
theorem writeBack_advance_invariant {s : State} {ds : Dests} (x : Word) (hinv : Invariant s) (hs : s.halted = false)
    (haddr : ds.m = true → s.a.toNat < s.params.memSize) : Invariant (s.writeBack ds x).advance := by
  obtain ⟨hrun, -, hcap⟩ := (s.halted_eq_false_iff).1 hs
  refine ⟨hinv.params, hinv.progFits, ?_, ?_, hcap, faultRecorded_of_running hrun⟩
  · rw [State.advance_mem, State.writeBack_mem]
    split_ifs
    exacts [Memory.write_wellFormed _ hinv.memCanonical _ _, hinv.memCanonical]
  · intro cell hcell
    rw [State.advance_mem, State.writeBack_mem] at hcell
    split_ifs at hcell with hm
    · obtain rfl | hold := Memory.mem_write hcell
      exacts [haddr hm, hinv.memInRange cell hold]
    · exact hinv.memInRange cell hcell

/-- A JMP changes pc and the step count alone. -/
theorem jump_invariant {s : State} (hinv : Invariant s) (hs : s.halted = false) (cond : Bool) :
    Invariant (if cond then s.jumpToA else s.advance) := by
  obtain ⟨hrun, -, hcap⟩ := (s.halted_eq_false_iff).1 hs
  cases cond <;> exact ⟨hinv.params, hinv.progFits, hinv.memCanonical, hinv.memInRange, hcap, faultRecorded_of_running hrun⟩

/-- The instruction at pc keeps the invariant, however it ends. -/
theorem exec_invariant {s t : State} {w : Word} {i : Instr} (hinv : Invariant s) (hs : s.halted = false)
    (hw : s.fetch = some w) (hd : decode s.params.maps w = .ok i) (h : exec i s = .next t) : Invariant t := by
  obtain ⟨hill, -⟩ | ⟨-, -, ha, rfl⟩ | ⟨f, sa, sb, ds, hshape, hdiv, hz, -, rfl⟩ | ⟨-, ⟨-, haddr⟩, x, rfl⟩ |
    ⟨c, sa, sb, -, -, -, rfl⟩ := exec_cases h
  · exact absurd (decode_wellFormed hd) hill
  · exact raise_invariant hinv (faultRecorded_memoryAddress hw ha)
  · have hzero : zeroDivisor s i.shape = true := by simp [hshape, zeroDivisor, hdiv, hz]
    obtain ⟨hmp, -, -⟩ := hinv.params
    exact raise_invariant hinv (faultRecorded_divideByZero hmp hw hd hzero)
  · exact writeBack_advance_invariant x hinv hs fun hm => haddr (.inr hm)
  · exact jump_invariant hinv hs _

/-- Settles O32: a step does nothing, raises IllegalInstruction with the word at pc, or runs what it decodes to. -/
theorem everyStepKeepsTheInvariant : Obligations.EveryStepKeepsTheInvariant := by
  intro s t hinv h
  obtain ⟨-, rfl⟩ | ⟨w, e, -, hw, hd, rfl⟩ | ⟨w, i, hs, hw, hd, h⟩ := step_cases h
  · exact hinv
  · exact raise_invariant hinv (faultRecorded_illegalInstruction hw hd)
  · exact exec_invariant hinv hs hw hd h

end Sys2Proof.Machine
end

section
/-! PROOFS. load and run (70_reset_and_hazards.md R230 to R233, 40_execution_cycle.md R93, 60_exceptions.md R202, R210). -/

namespace Sys2Proof.Machine

/-! ## load -/

/-- A program has as many words as texts. -/
theorem wordsOfTexts_length {program : List String} {words : List Word} (h : wordsOfTexts program = some words) :
    words.length = program.length := by
  induction program generalizing words with
  | nil => cases h; rfl
  | cons t rest ih =>
    simp only [wordsOfTexts] at h
    split at h
    · next w ws _ hws => cases h; simp [ih hws]
    · cases h

/-- A program spells no words exactly if one of its texts is malformed (R232). -/
theorem wordsOfTexts_eq_none_iff (program : List String) :
    wordsOfTexts program = none ↔
      ∃ t ∈ program, ¬ (t.toList.length = 16 ∧ ∀ ch ∈ t.toList, ch = '0' ∨ ch = '1') := by
  simp only [← wordOfText_isSome]
  rw [← Option.not_isSome_iff_eq_none, wordsOfTexts_isSome]
  push Not
  rfl

/-- Settles O40: without a malformed text the length alone decides. -/
theorem loadRefusesExactlyBadPrograms : Obligations.LoadRefusesExactlyBadPrograms := by
  intro s program
  rw [← wordsOfTexts_eq_none_iff]
  cases hw : wordsOfTexts program with
  | none => simp [load_of_malformed s hw]
  | some words =>
    rw [load_of_words s hw, wordsOfTexts_length hw]
    split_ifs with hlen
    · simp [hlen]
    · simpa using hlen

/-- Settles O41: no words fit any PROG_MAX, and pc is at their end. -/
theorem resetIsLoadOfTheEmptyProgram : Obligations.ResetIsLoadOfTheEmptyProgram := by
  intro s hp
  refine ⟨?_, by decide, by decide⟩
  rw [load_of_words (words := []) s rfl, if_pos (by simp), hp, reset_eq_freshState]

/-! ## run -/

theorem runFor_of_step {s u : State} (fuel : Nat) (h : step s = .next u) :
    runFor (fuel + 1) s = if u.halted then .next u else runFor fuel u := by
  simp only [runFor, h]

/-- A step to a state that is not halted is counted, within the cap. -/
theorem step_to_not_halted {s u : State} (h : step s = .next u) (hu : u.halted = false) :
    s.steps < s.params.stepLimit ∧ u.steps = s.steps + 1 ∧ u.params = s.params := by
  have hs : s.halted = false := by
    by_contra hs
    rw [Bool.not_eq_false] at hs
    rw [step_of_halted hs] at h
    cases h
    rw [hs] at hu
    cases hu
  obtain ⟨-, -, hcap⟩ := (s.halted_eq_false_iff).1 hs
  obtain ⟨hcount, -⟩ | ⟨f, rfl⟩ := step_completes_or_raises hs h
  · exact ⟨hcap, hcount, (stepKeepsProgramAndParameters s u h).2⟩
  · cases hu

/-- run takes one step, and then, where it may go on, it is run from there: the fuel that the step takes is what the
distance to the cap has become less. -/
theorem run_of_step {s u : State} (h : step s = .next u) : run s = if u.halted then .next u else run u := by
  rw [run, runFor_of_step _ h]
  split_ifs with hu
  · rfl
  · obtain ⟨hcap, hcount, hparams⟩ := step_to_not_halted h (by simpa using hu)
    rw [run, hparams, hcount]
    congr 1
    omega

/-- What one step keeps holds where run ends, and run ends halted. -/
theorem run_induction {P : State → Prop} (hstep : ∀ u v, P u → step u = .next v → P v) {s t : State} (hs : P s)
    (h : run s = .next t) : P t ∧ t.halted = true := by
  induction hn : s.params.stepLimit - s.steps using Nat.strong_induction_on generalizing s with
  | _ n ih =>
    obtain ⟨u, hu⟩ | ⟨hu, -⟩ := step_next_or_refused s
    · rw [run_of_step hu] at h
      split_ifs at h with hhalt
      · cases h
        exact ⟨hstep s _ hs hu, hhalt⟩
      · obtain ⟨hcap, hcount, hparams⟩ := step_to_not_halted hu (by simpa using hhalt)
        exact ih _ (by rw [hparams, hcount]; omega) (hstep s u hs hu) h rfl
    · simp [run, runFor, hu] at h

/-- A step counts no instruction past the cap. -/
theorem step_steps_le {s u : State} (h : step s = .next u) : u.steps ≤ max s.steps s.params.stepLimit := by
  cases hs : s.halted with
  | true =>
    rw [step_of_halted hs] at h
    cases h
    exact le_max_left _ _
  | false =>
    obtain ⟨-, -, hcap⟩ := (s.halted_eq_false_iff).1 hs
    obtain ⟨hcount, -⟩ | ⟨f, rfl⟩ := step_completes_or_raises hs h
    · omega
    · exact le_max_left _ _

/-- A run stays within the cap, or where it began (60_exceptions.md R202), on one program and with one set of parameters. -/
theorem run_spec {s t : State} (h : run s = .next t) :
    (t.prog = s.prog ∧ t.params = s.params ∧ t.steps ≤ max s.steps s.params.stepLimit) ∧ t.halted = true := by
  refine run_induction (P := fun u => u.prog = s.prog ∧ u.params = s.params ∧ u.steps ≤ max s.steps s.params.stepLimit)
    ?_ ⟨rfl, rfl, le_max_left _ _⟩ h
  rintro u v ⟨hprog, hparams, hsteps⟩ hv
  obtain ⟨hprog', hparams'⟩ := stepKeepsProgramAndParameters u v hv
  have hle := step_steps_le hv
  rw [hparams] at hle
  exact ⟨hprog'.trans hprog, hparams'.trans hparams, by omega⟩

/-! ## Where a run ends -/

theorem coreRun_of_step {s u : State} (k : Nat) (h : step s = .next u) :
    Host.Core.run core (k + 1) s = Host.Core.run core k u := by
  have hcore : core.step s = .next u := h
  simp only [Host.Core.run, hcore]

/-- Under the default policy run ends in the first halted state that one or more steps reach. -/
theorem run_ends {s : State} (hp : s.params.jmpTargetPolicy = .regA) :
    ∃ k t, Host.Core.run core (k + 1) s = .next t ∧ t.halted = true ∧ run s = .next t ∧
      ∀ j < k, ∃ u, Host.Core.run core (j + 1) s = .next u ∧ u.halted = false := by
  induction hn : s.params.stepLimit - s.steps using Nat.strong_induction_on generalizing s with
  | _ n ih =>
    obtain ⟨u, hu⟩ | ⟨-, hpol⟩ := step_next_or_refused s
    · cases hhalt : u.halted with
      | true => exact ⟨0, u, coreRun_of_step 0 hu, hhalt, by rw [run_of_step hu, if_pos hhalt], nofun⟩
      | false =>
        obtain ⟨hcap, hcount, hparams⟩ := step_to_not_halted hu hhalt
        obtain ⟨k, t, hk, ht, hrun, hbefore⟩ := ih _ (by rw [hparams, hcount]; omega) (hparams ▸ hp) rfl
        refine ⟨k + 1, t, by rw [coreRun_of_step _ hu, hk], ht, by rw [run_of_step hu, hhalt, ← hrun]; rfl, fun j hj => ?_⟩
        cases j with
        | zero => exact ⟨u, coreRun_of_step 0 hu, hhalt⟩
        | succ j =>
          obtain ⟨v, hv, hv'⟩ := hbefore j (by omega)
          exact ⟨v, by rw [coreRun_of_step _ hu, hv], hv'⟩
    · rw [hp] at hpol
      cases hpol

/-- Settles O42: run ends where it should, and the cap bounds what it counts. -/
theorem runEndsInTheFirstHaltedState : Obligations.RunEndsInTheFirstHaltedState := by
  intro s hp
  obtain ⟨k, t, hk, ht, hrun, hbefore⟩ := run_ends hp
  obtain ⟨⟨-, -, hsteps⟩, -⟩ := run_spec hrun
  refine ⟨k + 1, t, by omega, hk, ht, hrun, fun j hj hjk => ?_, by omega⟩
  obtain ⟨j, rfl⟩ := Nat.exists_eq_add_of_le' hj
  exact hbefore j (by omega)

/-- A machine that did not terminate is before a word and has not faulted (60_exceptions.md R210). -/
theorem outcome_eq_didNotTerminate_iff (t : State) :
    outcome t = .didNotTerminate ↔ t.status = .running ∧ t.pc.toNat < t.prog.length := by
  cases hs : t.status <;> simp [outcome, hs]

/-- Settles O43: a run ends halted, and of the three reasons to be halted only the cap is left. -/
theorem capHaltIsExact : Obligations.CapHaltIsExact := by
  intro s t hs h
  obtain ⟨⟨hprog, hparams, hsteps⟩, hhalt⟩ := run_spec h
  have hle : t.steps ≤ s.params.stepLimit := by omega
  refine ⟨hle, fun hout => ?_⟩
  obtain ⟨hrun, hpc⟩ := (outcome_eq_didNotTerminate_iff t).1 hout
  have hcap : t.params.stepLimit ≤ t.steps := by
    obtain hst | hend | hcap := (t.halted_eq_true_iff).1 hhalt
    · exact absurd hrun hst
    · omega
    · exact hcap
  rw [hparams] at hcap
  exact ⟨by omega, hprog ▸ hpc, hrun⟩

end Sys2Proof.Machine
end

section
/-! PROOFS. The assembler (45_assembler.md): the passes over one list of statements, and where the words of one statement
stand in the output. -/

namespace Sys2Proof.Machine

/-! ## The passes of a successful assembly -/

/-- A phase that does not succeed fails. -/
theorem error_of_not_ok {ε α : Type} {x : Except ε α} (h : ∀ v, x ≠ .ok v) : ∃ e, x = .error e := by
  cases x with
  | error e => exact ⟨e, rfl⟩
  | ok v => exact absurd rfl (h v)

/-- A successful assembly of parsed statements: the forms of the second pass are well formed, as many as the statements have
words, and each resolves, by the labels that the statements define, to the instruction at its place. -/
theorem assembleInstrs_passes {predefined : List (Name × Nat)} {lines : List String} {sts : List Numbered}
    {is : List Instr} (hparse : parseLines 0 lines = .ok sts) (h : assembleInstrs predefined lines = .ok is) :
    ∃ names t, collectLabels sts [] = .ok names ∧ Tables.lowerAll names ⟨[], [], predefined, firstVariable⟩ sts = .ok t ∧
      (∀ p ∈ t.forms, p.Encodable) ∧ t.forms.length = wordsBefore sts ∧
      List.Forall₂ (fun p i => resolve (labelsFrom 0 sts) p = .ok i) t.forms is := by
  obtain ⟨sts', names, t, hparse', hcollect, hlower, hresolve⟩ := assembleInstrs_spec h
  obtain rfl : sts' = sts := Except.ok.inj (hparse'.symm.trans hparse)
  obtain ⟨new, hforms, hwf, hlabels, hlen⟩ := lowerAll_spec (parseLines_encodable hparse) hlower
  rw [List.nil_append] at hforms hlabels
  have hall := resolveAll_spec hresolve
  rw [hlabels] at hall
  exact ⟨names, t, hcollect, hlower, hforms ▸ hwf, hforms ▸ hlen, hall⟩

/-- The text of a successful assembly parses. -/
theorem parseLines_of_assembled {predefined : List (Name × Nat)} {lines : List String} {is : List Instr}
    (h : assembleInstrs predefined lines = .ok is) : ∃ sts, parseLines 0 lines = .ok sts :=
  let ⟨sts, _, _, hparse, _⟩ := assembleInstrs_spec h
  ⟨sts, hparse⟩

/-- Settles O44: a well-formed form resolves to a well-formed instruction. -/
theorem assembledInstructionsAreWellFormed : Obligations.AssembledInstructionsAreWellFormed := by
  intro predefined lines is h i hi
  obtain ⟨sts, hparse⟩ := parseLines_of_assembled h
  obtain ⟨names, t, -, -, hwf, -, hall⟩ := assembleInstrs_passes hparse h
  obtain ⟨hlen, hget⟩ := List.forall₂_iff_get.1 hall
  obtain ⟨n, hn, rfl⟩ := List.getElem_of_mem hi
  exact resolve_wellFormed (hwf _ (List.get_mem _ _)) (hget n (hlen ▸ hn) hn)

/-- Settles O45: every form of the second pass becomes one instruction. -/
theorem assembledLengthIsTheWordCount : Obligations.AssembledLengthIsTheWordCount := by
  intro predefined lines sts is hparse h
  obtain ⟨names, t, -, -, -, hlen, hall⟩ := assembleInstrs_passes hparse h
  rw [← hlen, hall.length_eq]

/-! ## One statement among the others -/

/-- The second pass over one statement, in its place among the others: the forms before it are those of the statements
before it, and what it adds stays where it is. -/
theorem lowerAll_at {names : List Name} {before after : List Numbered} {st : Numbered} {t t' : Tables}
    (hs : ∀ x ∈ before ++ st :: after, x.2.Encodable) (h : t.lowerAll names (before ++ st :: after) = .ok t') :
    ∃ (t1 t2 : Tables) (rest : List PreForm), t1.lower names st = .ok t2 ∧ t1.forms.length = t.forms.length + wordsBefore before ∧
      t'.forms = t2.forms ++ rest := by
  obtain ⟨t1, h1, h2⟩ := lowerAll_append h
  simp only [Tables.lowerAll] at h2
  split at h2
  · cases h2
  · next t2 hst =>
    obtain ⟨new, hforms, -, -, hlen⟩ := lowerAll_spec (fun x hx => hs x (by simp [hx])) h1
    obtain ⟨rest, hrest, -⟩ := lowerAll_spec (fun x hx => hs x (by simp [hx])) h2
    exact ⟨t1, t2, rest, hst, by rw [hforms, List.length_append, hlen], hrest⟩

/-- A GOTO becomes a load of its label and an unconditional JMP, at its place (R170, D27). -/
theorem lowerAll_goto {names : List Name} {predefined : List (Name × Nat)} {before after : List Numbered} {k : Nat}
    {x : Name} {t : Tables} (hs : ∀ st ∈ before ++ (k, .goto x) :: after, st.2.Encodable)
    (h : Tables.lowerAll names ⟨[], [], predefined, firstVariable⟩ (before ++ (k, .goto x) :: after) = .ok t) :
    t.forms[wordsBefore before]? = some (.pending k x) ∧ t.forms[wordsBefore before + 1]? = some (.ready (.jmpAl .a .a)) := by
  obtain ⟨t1, t2, rest, hlower, hlen, hforms⟩ := lowerAll_at hs h
  obtain ⟨new, hnew, -, -, -, hgoto⟩ := lower_spec (by simp [Statement.Encodable]) hlower
  rw [hgoto k x rfl] at hnew
  rw [List.length_nil, Nat.zero_add] at hlen
  rw [hforms, hnew, ← hlen]
  simp

/-- The instruction at a place resolves the form at that place. -/
theorem forall₂_getElem? {α β : Type} {R : α → β → Prop} {ps : List α} {is : List β} (h : List.Forall₂ R ps is)
    {n : Nat} {p : α} (hp : ps[n]? = some p) : ∃ i, is[n]? = some i ∧ R p i := by
  obtain ⟨hlen, hget⟩ := List.forall₂_iff_get.1 h
  obtain ⟨hn, rfl⟩ := List.getElem?_eq_some_iff.1 hp
  exact ⟨is[n], List.getElem?_eq_getElem (hlen ▸ hn), hget n hn (hlen ▸ hn)⟩

/-- A load of a label that has an index is the load of that index (R168). -/
theorem resolve_pending {labels : List (Name × Nat)} {k n : Nat} {x : Name} {i : Instr} (hx : lookupName labels x = some n)
    (h : resolve labels (.pending k x) = .ok i) : i = .ldi (BitVec.ofNat 15 n) := by
  simp only [resolve, hx] at h
  split at h <;> cases h
  rfl

/-- Settles O46: the load that a GOTO becomes resolves by the one definition of its label. -/
theorem gotoLoadsTheIndexOfItsLabel : Obligations.GotoLoadsTheIndexOfItsLabel := by
  intro predefined lines is x line line' before after before' after' hdef hgoto h
  obtain ⟨names, t, hcollect, hlower, -, -, hall⟩ := assembleInstrs_passes hdef h
  obtain ⟨-, hunique⟩ := collectLabels_unique hcollect rfl
  have hindex : lookupName (labelsFrom 0 (before ++ (line, .labelDef x) :: after)) x = some (wordsBefore before) := by
    rw [lookupName_labelsFrom hunique, Nat.zero_add]
  have hsame := Except.ok.inj (hdef.symm.trans hgoto)
  rw [hsame] at hlower
  obtain ⟨hload, hjump⟩ := lowerAll_goto (parseLines_encodable hgoto) hlower
  obtain ⟨i, hi, hri⟩ := forall₂_getElem? hall hload
  obtain ⟨j, hj, hrj⟩ := forall₂_getElem? hall hjump
  cases hrj
  exact ⟨resolve_pending hindex hri ▸ hi, hj⟩

/-! ## What fails the assembly -/

/-- A text that parses and fails the first pass fails. -/
theorem assembleInstrs_of_collectLabels_error {predefined : List (Name × Nat)} {lines : List String} {sts : List Numbered}
    {e : AsmError} (hparse : parseLines 0 lines = .ok sts) (he : collectLabels sts [] = .error e) :
    assembleInstrs predefined lines = .error e := by
  simp only [assembleInstrs, hparse, he, bind, Except.bind]

/-- Settles O47: the first pass fails, and its only error is a duplicate label. -/
theorem duplicateLabelFailsAssembly : Obligations.DuplicateLabelFailsAssembly := by
  intro predefined lines x line line' before between after hparse
  generalize hsts : _ ++ (line', Statement.labelDef x) :: after = sts at hparse
  have hne : ∀ names, collectLabels sts [] ≠ .ok names := fun names hnames =>
    (collectLabels_unique hnames hsts.symm).2 line (by simp)
  obtain ⟨e, he⟩ := error_of_not_ok hne
  obtain ⟨k, y, rfl⟩ := collectLabels_error he
  exact ⟨k, y, assembleInstrs_of_collectLabels_error hparse he⟩

/-- Settles O48: the load that the GOTO becomes would resolve to no index. -/
theorem undefinedLabelFailsAssembly : Obligations.UndefinedLabelFailsAssembly := by
  intro predefined lines sts line x hparse hgoto hundef
  refine error_of_not_ok fun is h => ?_
  obtain ⟨names, t, -, hlower, -, -, hall⟩ := assembleInstrs_passes hparse h
  have hnone := lookupName_labelsFrom_none (n := 0) hundef
  obtain ⟨before, after, rfl⟩ := List.append_of_mem hgoto
  obtain ⟨hload, -⟩ := lowerAll_goto (parseLines_encodable hparse) hlower
  obtain ⟨i, -, hri⟩ := forall₂_getElem? hall hload
  simp [resolve, hnone] at hri

/-- Settles O51: the definition of the label would need an index that fits. -/
theorem labelIndexOutOfRangeFailsAssembly : Obligations.LabelIndexOutOfRangeFailsAssembly := by
  intro predefined lines x line before after hparse hfar
  refine error_of_not_ok fun is h => ?_
  obtain ⟨names, t, -, hlower, -⟩ := assembleInstrs_passes hparse h
  obtain ⟨t1, t2, rest, hdef, hlen, -⟩ := lowerAll_at (parseLines_encodable hparse) hlower
  obtain ⟨hfits, -⟩ := defineLabel_spec hdef
  rw [hlen, literalMax, List.length_nil] at hfits
  omega

/-- Settles O49: the texts are those of words, so load accepts them and installs those words. -/
theorem assembledTextsLoad : Obligations.AssembledTextsLoad := by
  intro s predefined lines texts h hlen
  obtain ⟨is, -, rfl⟩ := map_eq_ok h
  have hmap : is.map (fun i => textOfWord (encode s.params.maps i)) = (is.map (encode s.params.maps)).map textOfWord := by
    rw [List.map_map]
    rfl
  rw [hmap] at hlen ⊢
  refine ⟨freshState s.params (is.map (encode s.params.maps)), ?_, rfl⟩
  rw [load_of_words s (wordsOfTexts_map_textOfWord _), if_pos (by simpa using hlen)]

end Sys2Proof.Machine
end

section
/-! PROOFS. The line that the disassembler prints, read by the assembler: its characters as tokens, its tokens as a statement,
and the statement as one word (45_assembler.md R164, R181, R182, R187). -/

namespace Sys2Proof.Machine

/-! ## Tokens -/

/-- The token of the spelling of an operand. -/
def selToken : Sel → Token
  | .a => .name ['A']
  | .b => .name ['B']
  | .c => .name ['C']
  | .d => .name ['D']
  | .zero => .num 0
  | .one => .num 1
  | .m => .name ['M']
  | .reserved => .sym '?'

theorem parseOperand_selToken {s : Sel} (h : s ≠ .reserved) : parseOperand (selToken s) = .ok (.sel s) := by
  cases s with
  | reserved => exact absurd rfl h
  | a | b | c | d | zero | one | m => rfl

/-- An operand is spelled by one character, which alone is a whole token. -/
theorem selText_eq_singleton {s : Sel} (h : s ≠ .reserved) :
    ∃ c, selText s = [c] ∧ c ≠ '#' ∧ isWordChar c = true ∧ wordToken [c] = some (selToken s) := by
  cases s with
  | reserved => exact absurd rfl h
  | a | b | c | d | zero | one | m => exact ⟨_, rfl, by decide, by decide, by decide⟩

/-- A character that is a token of its own: no word character, no blank and no start of a comment. -/
def IsSymbol (c : Char) : Prop := isWordChar c = false ∧ c ≠ ' ' ∧ c ≠ '\t' ∧ c ≠ '#'

/-- A symbol ends the run before it and is the next token. -/
theorem tokenize_symbol {c : Char} {cs run : List Char} {ts : List Token} (hc : IsSymbol c)
    (h : tokenize cs [] = some ts) : tokenize (c :: cs) run = tokensAfter run (.sym c :: ts) := by
  obtain ⟨hword, hspace, htab, -⟩ := hc
  simp [tokenize, hword, hspace, htab, h]

/-- An operand at the end of a line is the last token. -/
theorem tokenize_selText {s : Sel} (hs : s ≠ .reserved) : tokenize (selText s) [] = some [selToken s] := by
  obtain ⟨c, hc, -, hword, htok⟩ := selText_eq_singleton hs
  simp [hc, tokenize, hword, tokensAfter, htok]

/-- An operand before a symbol is a token. -/
theorem tokenize_selText_symbol {s : Sel} (hs : s ≠ .reserved) {c : Char} {cs : List Char} {ts : List Token}
    (hc : IsSymbol c) (h : tokenize cs [] = some ts) :
    tokenize (selText s ++ c :: cs) [] = some (selToken s :: .sym c :: ts) := by
  obtain ⟨x, hx, -, hword, htok⟩ := selText_eq_singleton hs
  rw [hx, tokenize_append [] (by simpa using hword), tokenize_symbol hc h]
  simp [tokensAfter, htok]

theorem selText_no_hash {s : Sel} (hs : s ≠ .reserved) : ∀ c ∈ selText s, c ≠ '#' := by
  obtain ⟨c, hc, hhash, -⟩ := selText_eq_singleton hs
  simpa [hc] using hhash

/-- A binary operator is one symbol. -/
theorem binopText_eq_singleton (f : BinOp) : ∃ c, binopText f = [c] ∧ IsSymbol c ∧ binopOf c = some f := by
  cases f <;> exact ⟨_, rfl, ⟨by decide, by decide, by decide, by decide⟩, rfl⟩

/-! ## Right sides -/

/-- What a right side needs for its line to be read as the operation `e`. -/
def ReadAs (rest : List Char) (e : Expr) : Prop :=
  (∀ c ∈ rest, c ≠ '#') ∧
    ∃ ts, tokenize rest [] = some ts ∧ parseExpr ts = .ok e ∧ ∀ ts', ts ≠ .sym '=' :: ts'

theorem parseLine_of_readAs {ds : Dests} (hds : ds ≠ .empty) {rest : List Char} {e : Expr} (h : ReadAs rest e) :
    parseLine (String.ofList (setText ds rest)) = .ok (some (.set ds e)) := by
  obtain ⟨hhash, ts, htok, hexpr, hne⟩ := h
  rw [setText, if_neg hds, List.append_assoc]
  exact parseLine_set hds hhash htok hexpr hne

theorem selToken_ne_equals (s : Sel) : selToken s ≠ .sym '=' := by cases s <;> simp [selToken]

/-- The spelling of a unary operation (R164). -/
theorem readAs_un (u : UnOp) {sa : Sel} (ha : sa ≠ .reserved) : ReadAs (unopText u ++ selText sa) (.un u (.sel sa)) := by
  have hop := parseOperand_selToken ha
  have htok := tokenize_selText ha
  have hhash := selText_no_hash ha
  cases u with
  | copy => exact ⟨hhash, _, htok, by simp [parseExpr, hop, bind, Except.bind, pure, Except.pure],
      by simp [selToken_ne_equals]⟩
  | not =>
    have hsym : IsSymbol '!' := ⟨by decide, by decide, by decide, by decide⟩
    exact ⟨by simpa [unopText] using hhash, _, tokenize_symbol hsym htok,
      by simp [parseExpr, hop, bind, Except.bind, pure, Except.pure], by simp⟩
  | neg =>
    have hsym : IsSymbol '-' := ⟨by decide, by decide, by decide, by decide⟩
    exact ⟨by simpa [unopText] using hhash, _, tokenize_symbol hsym htok,
      by simp [parseExpr, hop, bind, Except.bind, pure, Except.pure], by simp⟩

/-- The spelling of a binary operation (R164). -/
theorem readAs_bin (f : BinOp) {sa sb : Sel} (ha : sa ≠ .reserved) (hb : sb ≠ .reserved) :
    ReadAs (selText sa ++ binopText f ++ selText sb) (.bin f (.sel sa) (.sel sb)) := by
  obtain ⟨c, hc, hsym, hof⟩ := binopText_eq_singleton f
  rw [hc, List.append_assoc, List.singleton_append]
  refine ⟨fun x hx => ?_, _, tokenize_selText_symbol ha hsym (tokenize_selText hb), ?_, by simp [selToken_ne_equals]⟩
  · obtain hx | hx := List.mem_append.1 hx
    · exact selText_no_hash ha x hx
    · obtain rfl | hx := List.mem_cons.1 hx
      · obtain ⟨-, -, -, hhash⟩ := hsym
        exact hhash
      · exact selText_no_hash hb x hx
  · simp [parseExpr, parseOperand_selToken ha, parseOperand_selToken hb, hof, bind, Except.bind]

/-! ## Immediate loads -/

/-- The line of an immediate load is read as that load (R181). -/
theorem parseLine_ldi (v : BitVec 15) : parseLine (instrText (.ldi v)) = .ok (some (.imm (.num v.toNat))) := by
  have hlt : v.toNat < 32768 := v.isLt
  obtain ⟨ds, hds, hne, hdigit, hvalue⟩ := decimalDigits_spec 5 v.toNat [] (by decide) (by omega)
  rw [List.append_nil] at hds
  have htext : decimalText v = ds := hds
  have hsym : IsSymbol '@' := ⟨by decide, by decide, by decide, by decide⟩
  have htok : tokenize ('@' :: ds) [] = some [.sym '@', .num v.toNat] :=
    tokenize_symbol hsym (tokenize_digits hdigit hne (by simp [hvalue]))
  have hstrip : stripComment ('@' :: ds) = '@' :: ds := by
    refine stripComment_of_no_hash fun c hc => ?_
    obtain rfl | hc := List.mem_cons.1 hc
    · decide
    · rintro rfl
      exact absurd (hdigit _ hc) (by decide)
  have hfits : v.toNat ≤ literalMax := by rw [literalMax]; omega
  simp [instrText, Instr.shape, htext, parseLine, hstrip, htok, parseStatement, checkedNum, hfits, bind, Except.bind,
    pure, Except.pure]

/-! ## One line as one word -/

/-- A text of one line whose statement lowers to one ready form assembles to that form's instruction. -/
theorem assembleInstrs_single {predefined : List (Name × Nat)} {line : String} {st : Statement} {i : Instr}
    (hparse : parseLine line = .ok (some st)) (hlabel : collectLabels [(0, st)] [] = .ok [])
    (hlower : ∀ t : Tables, t.lower [] (0, st) = .ok (t.emit (.ready i))) : assembleInstrs predefined [line] = .ok [i] := by
  simp [assembleInstrs, parseLines, hparse, hlabel, Tables.lowerAll, hlower, Tables.emit, resolveAll, resolve, Except.map,
    bind, Except.bind]

theorem assembleInstrs_ldi (predefined : List (Name × Nat)) (v : BitVec 15) :
    assembleInstrs predefined [instrText (.ldi v)] = .ok [.ldi v] := by
  refine assembleInstrs_single (parseLine_ldi v) rfl fun t => ?_
  have hlt : v.toNat < 32768 := v.isLt
  rw [Tables.lower, Tables.emitLiteral, Tables.emitLdi, if_pos (by rw [literalMax]; omega), BitVec.ofNat_toNat,
    BitVec.setWidth_eq]

theorem assembleInstrs_un (predefined : List (Name × Nat)) (u : UnOp) {sa : Sel} {ds : Dests} (ha : sa ≠ .reserved)
    (hds : ds ≠ .empty) : assembleInstrs predefined [instrText (u.instr sa ds)] = .ok [u.instr sa ds] := by
  rw [instrText, UnOp.instr_shape]
  exact assembleInstrs_single (parseLine_of_readAs hds (readAs_un u ha)) rfl fun _ => rfl

theorem assembleInstrs_bin (predefined : List (Name × Nat)) (f : BinOp) {sa sb : Sel} {ds : Dests} (ha : sa ≠ .reserved)
    (hb : sb ≠ .reserved) (hds : ds ≠ .empty) :
    assembleInstrs predefined [instrText (f.instr sa sb ds)] = .ok [f.instr sa sb ds] := by
  rw [instrText, BinOp.instr_shape]
  exact assembleInstrs_single (parseLine_of_readAs hds (readAs_bin f ha hb)) rfl fun _ => rfl

/-- Settles O50: in each class but that of the JMPs the line is read back as one statement of one word. -/
theorem disassembledLineAssemblesBack : Obligations.DisassembledLineAssemblesBack := by
  intro predefined i hi hj hds
  obtain ⟨v, rfl⟩ | ⟨u, sa, ds, rfl⟩ | ⟨f, sa, sb, ds, rfl⟩ | ⟨c, sa, sb, rfl⟩ := i.class_cases
  · exact assembleInstrs_ldi predefined v
  · rw [UnOp.instr_shape] at hds
    exact assembleInstrs_un predefined u ((u.instr_wellFormed_iff sa ds).1 hi) hds
  · rw [BinOp.instr_shape] at hds
    obtain ⟨ha, hb⟩ := (f.instr_wellFormed_iff sa sb ds).1 hi
    exact assembleInstrs_bin predefined f ha hb hds
  · exact absurd rfl (hj c sa sb)

end Sys2Proof.Machine
end
